-- ==== Sys2Proof/Word.lean ====
section
/-! DEFINITION. The word types: all arithmetic of the core is 8-bit unsigned arithmetic modulo 256 (R3), which is
`BitVec 8` addition; every comparison is unsigned (R4), which is `<` on `BitVec 8`. -/

namespace Sys2Proof

/-- A byte: a register, a cell of `S`, an index into `S`, a payload or output byte (R1, R3). -/
abbrev Byte := BitVec 8

/-- A nibble, 0..15, the operand of AbsorbNibble (R70). -/
abbrev Nibble := BitVec 4

/-- The 32-bit command header, one number with bit 0 its least significant bit (R39, R46). -/
abbrev Header := BitVec 32

end Sys2Proof
end

