-- ==== Sys2Proof/Config.lean ====
section
/-! DEFINITION. What is fixed for this hardware (R1, R2, R7). The spec leaves nothing open in the data path (R6), so
there is no free value here; the one open parameter, `Transport` (D2), is read by no rule and has no constant. -/

namespace Sys2Proof.Config

/-- `N = 256`, the number of cells of `S` (R1). -/
def N : Nat := 256

/-- `H = N/2 = 128`: absorb capacity and base index of the absorb target zone (R2). -/
def H : Byte := 128

/-- `2N = 512`, the Update steps of one Whip (R2, R81). -/
def whipSteps : Nat := 512

/-- `N/2 = 128`, the pairs one Crush visits (R82). -/
def crushPairs : Nat := 128

/-- What one Whip adds to `W` (R81). -/
def strideStep : Byte := 2

/-- `LENW = 12`: the width of the header's two length fields (R7). -/
def LENW : Nat := 12

/-- The longest length one command carries, `2^LENW - 1 = 4095` (R7). -/
def maxLen : Nat := 4095

end Sys2Proof.Config
end

