-- ==== Sys2Proof/Syntax.lean ====
section
/-! DEFINITION. The command type of R59, one constructor per row of the opcode table, and the transaction that carries
a command to the core (R45). -/

namespace Sys2Proof

/-- The abstract commands (R59). Lengths are naturals: `WellFormed` bounds what one header can carry. -/
inductive Instr where
  /-- Reset (R65). -/
  | rst
  /-- Absorb the bytes (R72). -/
  | abs (data : List Byte)
  /-- AbsorbStop (R74). -/
  | abstop
  /-- Drip: one output byte (R92). -/
  | drip
  /-- Squeeze `n` output bytes (R93). -/
  | sqz (n : Nat)
  /-- XORKeyStream: destination capacity and source bytes (R100). -/
  | xorks (dcap : Nat) (src : List Byte)
  deriving DecidableEq, Repr

/-- What the host sends: a 32-bit header and a payload, possibly empty (R45). -/
structure Transaction where
  header  : Header
  payload : List Byte
  deriving DecidableEq, Repr

end Sys2Proof
end

