-- ==== Sys2Proof/WellFormed.lean ====
section
/-! DEFINITION. Which commands one transaction can carry: R59's "encodable", every length at most 4095. -/

namespace Sys2Proof

/-- A length fits the header's 12-bit field (R7, R54). -/
def fitsLen (n : Nat) : Bool := n ≤ Config.maxLen

/-- R59: a command is encodable when every length in it is at most 4095. -/
def Instr.wellFormed : Instr → Bool
  | .rst => true
  | .abs data => fitsLen data.length
  | .abstop => true
  | .drip => true
  | .sqz n => fitsLen n
  | .xorks dcap src => fitsLen dcap && fitsLen src.length

end Sys2Proof
end

