-- ==== Sys2Proof/Decode.lean ====
section
/-! DEFINITION. Decoding and encoding of transactions (30_encoding.md R46 to R50, R53, R59). Decoding is total on any
header and any payload; what it rejects it rejects with the reason. Decoding reads no state (R50). -/

namespace Sys2Proof

/-- Why a transaction is ILLEGAL (R53). The core does not report the reason: every one is `E_ILLEGAL` (R122). -/
inductive Illegal where
  /-- `op` is none of the six defined values (R47). -/
  | reservedOpcode
  /-- A header field the command does not use is not zero (R48). -/
  | nonzeroField
  /-- The payload does not have the length the header asks for (R49). -/
  | payloadLength
  deriving DecidableEq, Repr

/-- `header[31:24]` (R46). -/
def Header.op (h : Header) : BitVec 8 := h.extractLsb' 24 8

/-- `header[23:12]`, unsigned, as it stands (R46, R54). -/
def Header.dcap (h : Header) : BitVec 12 := h.extractLsb' 12 12

/-- `header[11:0]`, unsigned, as it stands (R46, R54). -/
def Header.len (h : Header) : BitVec 12 := h.extractLsb' 0 12

/-- The decoded command, when the unused header fields are zero (R48) and the payload has the length the header asks
for (R49). -/
def accept (unusedZero : Bool) (payloadLen wanted : Nat) (i : Instr) : Except Illegal Instr :=
  if unusedZero = false then .error .nonzeroField
  else if payloadLen = wanted then .ok i
  else .error .payloadLength

/-- R50: total from (header, payload) to a command or the verdict ILLEGAL. -/
def decode (t : Transaction) : Except Illegal Instr :=
  let op := Header.op t.header
  let dcap := Header.dcap t.header
  let len := Header.len t.header
  let n := t.payload.length
  if op = 0x01 then accept (dcap == 0 && len == 0) n 0 .rst
  else if op = 0x02 then accept (dcap == 0) n len.toNat (.abs t.payload)
  else if op = 0x03 then accept (dcap == 0 && len == 0) n 0 .abstop
  else if op = 0x04 then accept (dcap == 0 && len == 0) n 0 .drip
  else if op = 0x05 then accept (dcap == 0) n 0 (.sqz len.toNat)
  else if op = 0x06 then accept true n len.toNat (.xorks dcap.toNat t.payload)
  else .error .reservedOpcode

/-! ## The encoder -/

/-- R46: `header = op * 2^24 + dcap * 2^12 + len`. -/
def mkHeader (op dcap len : Nat) : Header :=
  BitVec.ofNat 32 (op * 2 ^ 24 + dcap * 2 ^ 12 + len)

/-- R59: the header and payload of a command. It is the command's encoding only where `Instr.wellFormed` holds. -/
def encode : Instr → Transaction
  | .rst => ⟨mkHeader 0x01 0 0, []⟩
  | .abs data => ⟨mkHeader 0x02 0 data.length, data⟩
  | .abstop => ⟨mkHeader 0x03 0 0, []⟩
  | .drip => ⟨mkHeader 0x04 0 0, []⟩
  | .sqz n => ⟨mkHeader 0x05 0 n, []⟩
  | .xorks dcap src => ⟨mkHeader 0x06 dcap src.length, src⟩

/-! ## The match / mask patterns of R48 -/

/-- One row of the opcode table: a header is of this row when `header AND mask = match` (R48). -/
structure Pattern where
  mnemonic : String
  value    : Header
  mask     : Header
  deriving DecidableEq, Repr

/-- The header has the row's pattern (R48). -/
def Pattern.matchesHeader (p : Pattern) (h : Header) : Bool := h &&& p.mask == p.value

/-- R48's six match / mask pairs. -/
def opcodeTable : List Pattern :=
  [⟨"RST", 0x01000000, 0xFFFFFFFF⟩, ⟨"ABS", 0x02000000, 0xFFFFF000⟩, ⟨"ABSTOP", 0x03000000, 0xFFFFFFFF⟩,
   ⟨"DRIP", 0x04000000, 0xFFFFFFFF⟩, ⟨"SQZ", 0x05000000, 0xFFFFF000⟩, ⟨"XORKS", 0x06000000, 0xFF000000⟩]

/-- R48: a header is legal when it has one of the six patterns. -/
def Header.legal (h : Header) : Bool := opcodeTable.any fun p => p.matchesHeader h

/-- R49: the payload bytes the header's command takes: `len` for `ABS` and `XORKS`, none for the others. -/
def Header.payloadLen (h : Header) : Nat :=
  if Header.op h = 0x02 ∨ Header.op h = 0x06 then (Header.len h).toNat else 0

/-- R49: the payload has exactly the bytes the header asks for. -/
def Transaction.wellFramed (t : Transaction) : Bool := t.payload.length == Header.payloadLen t.header

/-! ## The host's numbering of a table row's bits -/

/-- The `k` payload bytes that stand above the header in the bits of `w`: byte `p` is bits `8p + 7 .. 8p` (log 11). -/
def payloadBytes : Nat → Nat → List Byte
  | 0, _ => []
  | k + 1, w => BitVec.ofNat 8 w :: payloadBytes k (w / 256)

/-- The transaction whose bits are `w`, `nbits` of them: the header is bits 31..0, payload bytes follow upward, and the
bytes the header asks for beyond `nbits` are zero (log 11). -/
def tableTransaction (nbits w : Nat) : Transaction :=
  let bits := w % 2 ^ nbits
  let h : Header := BitVec.ofNat 32 bits
  ⟨h, payloadBytes (max (Header.payloadLen h) ((nbits - 32 + 7) / 8)) (bits / 2 ^ 32)⟩

/-- What the decoder reads from an opcode-table word of `nbits` bits (log 11). -/
def decodeTableWord (nbits w : Nat) : Option Instr :=
  match decode (tableTransaction nbits w) with
  | .ok i => some i
  | .error _ => none

end Sys2Proof
end

