-- ==== Sys2Proof/Machine/State.lean ====
section
/-! DEFINITION. The state of the machine as plain data (10_state.md): the sponge `S I J K W Z A`, the fault flag `FLT`,
and the two ends of the command port (what the host has delivered, what the core last answered). -/

namespace Sys2Proof.Machine

/-- The array `S` (R10, R30): a list of cells in canonical form (`Memory.wf`); an unlisted cell reads as its reset
contents `S[x] = x` (R22; log 8). -/
abbrev Memory := List Host.Cell

/-- The source's one data entity, the Sponge: the array and the six registers (10_state.md section 1). -/
structure Sponge where
  /-- The permutation array (R10). -/
  S : Memory
  /-- Pointer (R12). -/
  I : Byte
  /-- Pointer (R12). -/
  J : Byte
  /-- Pointer (R12). -/
  K : Byte
  /-- Stride, always odd (R13). -/
  W : Byte
  /-- Last output byte (R14). -/
  Z : Byte
  /-- Absorb counter, 0..128, held in 8 bits (R15). -/
  A : Byte
  deriving DecidableEq, Repr

/-- The status of a response (R52). Codes 0x4 to 0xF are reserved and never produced. -/
inductive Status where
  /-- Executed as its rule says. -/
  | ok
  /-- `XORKS` with `dcap < len` (R101, R121). -/
  | eLen
  /-- The transaction decodes to ILLEGAL (R122). -/
  | eIllegal
  /-- Refused because `FLT = 1` (R123). -/
  | eFaulted
  deriving DecidableEq, Repr

/-- The core's answer to a transaction (R45, R51). -/
structure Response where
  status : Status
  out    : List Byte
  deriving DecidableEq, Repr

/-- What reaches the core from outside (R45, R140). -/
inductive Input where
  /-- The host delivers a transaction (R45). -/
  | transaction (t : Transaction)
  /-- Hardware reset between two commands (R140). -/
  | hardwareReset
  /-- Hardware reset while the transaction's command is in progress: the command is abandoned (R140; log 6). -/
  | resetDuring (t : Transaction)
  deriving DecidableEq, Repr

/-- The whole machine. -/
structure State where
  /-- `S I J K W Z A`. -/
  sponge   : Sponge
  /-- The sticky fault flag (R17). -/
  FLT      : Bool
  /-- The last response returned, none where there is none: the model's own field (log 4). -/
  response : Option Response
  /-- Delivered and not yet taken, oldest first: the model's own field (log 3). -/
  input    : List Input
  deriving DecidableEq, Repr

/-- Why the machine stops. A fault of the hardware (`E_LEN`, `E_ILLEGAL`, `E_FAULTED`) is no stop: it is a next state with a
response (R125). -/
inductive Fault where
  /-- `A` is in 129..255, where 93_implementation_defined.md U9 makes the machine stuck. Raised by every command whose rule
  reads `A` (`ABS` of at least one byte, `ABSTOP`, `DRIP`, `SQZ`, `XORKS` past its length check). Safe: no run from
  reset reaches it (log 7). -/
  | absorbCounterOutOfRange
  deriving DecidableEq, Repr

/-- Why an instruction has no meaning. -/
inductive Refusal where
  /-- An instruction not modelled yet; raised by no arm of this model. Safe. -/
  | notModelled (mnemonic : String)
  deriving DecidableEq, Repr

/-- R22: the sponge after Reset. No cell is listed, so `S[x] = x`. -/
def Sponge.reset : Sponge := { S := [], I := 0, J := 0, K := 0, W := 1, Z := 0, A := 0 }

/-- R22, R143: the machine right after reset; no response returned yet, nothing delivered yet (log 3, log 4). -/
def State.reset : State := { sponge := Sponge.reset, FLT := false, response := none, input := [] }

end Sys2Proof.Machine
end

