-- ==== Sys2Proof/Machine/Operands.lean ====
section
/-! DEFINITION. The operand forms: the two nibbles of an absorbed byte (R54, R71) and the index expressions by which
the internal operations address `S` (20_memory.md R31, R34 to R36 and the table of its section 6). -/

namespace Sys2Proof.Machine

/-- `b % 16 = b[3:0]`, absorbed first (R71). -/
def lowNibble (b : Byte) : Nibble := b.extractLsb' 0 4

/-- `b / 16 = b[7:4]`, absorbed second (R71). -/
def highNibble (b : Byte) : Nibble := b.extractLsb' 4 4

/-- `128 + v`, the cell AbsorbNibble swaps with cell `A` (R34). -/
def absorbTarget (v : Nibble) : Byte := Config.H + v.setWidth 8

/-- The lower cell of Crush's pair `v` (R35). -/
def crushLow (v : Nat) : Byte := BitVec.ofNat 8 v

/-- `255 - v`, the upper cell of Crush's pair `v` (R35). -/
def crushHigh (v : Nat) : Byte := 255 - BitVec.ofNat 8 v

end Sys2Proof.Machine
end

