-- ==== Sys2Proof/Machine/Ops.lean ====
section
/-! DEFINITION. The named operations over `S`, over the machine's response and over its inputs: read, write and swap of
cells (20_memory.md), completing a command, fault entry and refusal (60_exceptions.md), the one reset. -/

namespace Sys2Proof.Machine

/-! ## The array -/

/-- What an unlisted cell reads as: its reset contents, `S[x] = x` (R22). -/
def Memory.initial (x : Nat) : Byte := BitVec.ofNat 8 x

/-- The canonical form: addresses strictly rising, inside the 256 cells (R30), no entry equal to the reset contents. -/
abbrev Memory.wf (m : Memory) : Prop :=
  m.Pairwise (fun c d => c.1 < d.1) ∧ ∀ c ∈ m, c.1 < Config.N ∧ c.2 ≠ Memory.initial c.1

/-- The contents of the cell with number `x`. -/
def Memory.lookup : Memory → Nat → Byte
  | [], x => Memory.initial x
  | (y, v) :: m, x => if y = x then v else Memory.lookup m x

/-- `S[x]`: one byte, no side effect (R32, R40). -/
def Memory.read (m : Memory) (x : Byte) : Byte := Memory.lookup m x.toNat

/-- `m` with no entry for cell `x`. -/
def Memory.erase (m : Memory) (x : Nat) : Memory := m.filter fun c => c.1 != x

/-- `m` with an entry for cell `x`, at its place in rising order. -/
def Memory.insert : Memory → Nat → Byte → Memory
  | [], x, v => [(x, v)]
  | (y, w) :: m, x, v => if x < y then (x, v) :: (y, w) :: m else (y, w) :: Memory.insert m x v

/-- `S[x] <- v` (R32); writing the reset contents removes the entry. -/
def Memory.write (m : Memory) (x v : Byte) : Memory :=
  if v = Memory.initial x.toNat then Memory.erase m x.toNat
  else Memory.insert (Memory.erase m x.toNat) x.toNat v

/-- R33: `swap(S[x], S[y])`; both cells are read before either is written. -/
def Memory.swap (m : Memory) (x y : Byte) : Memory :=
  Memory.write (Memory.write m x (Memory.read m y)) y (Memory.read m x)

/-- R11: every value 0..255 appears exactly once. -/
def Memory.IsPermutation (m : Memory) : Prop := Function.Bijective (Memory.read m)

/-! ## Register writes: `R <- v`, everything else unchanged -/

/-- The sponge with the array `m`. -/
def Sponge.setS (q : Sponge) (m : Memory) : Sponge := { q with S := m }

/-- `W <- v`. -/
def Sponge.setW (q : Sponge) (v : Byte) : Sponge := { q with W := v }

/-- `Z <- v`. -/
def Sponge.setZ (q : Sponge) (v : Byte) : Sponge := { q with Z := v }

/-- `A <- v`. -/
def Sponge.setA (q : Sponge) (v : Byte) : Sponge := { q with A := v }

/-! ## Ending a command -/

/-- R124 step 4: the command ran; its effect on the sponge is `q`, status `OK`, the bytes emitted. -/
def State.complete (s : State) (q : Sponge) (out : List Byte) : State :=
  { s with sponge := q, response := some ⟨.ok, out⟩ }

/-- R125, fault entry: `FLT <- 1`, the status code, an empty `out`; `S I J K W Z A` as before. -/
def State.faultEntry (s : State) (e : Status) : State :=
  { s with FLT := true, response := some ⟨e, []⟩ }

/-- R123: `E_FAULTED`, an empty `out`, no state changes. -/
def State.refuse (s : State) : State :=
  { s with response := some ⟨.eFaulted, []⟩ }

/-- R22: the reset of `S I J K W Z A` and `FLT`, the one way back from `FLT = 1` (R127). -/
def State.clear (s : State) : State :=
  { s with sponge := Sponge.reset, FLT := false }

/-- R140: hardware reset; a command in progress is abandoned and returns no response. -/
def State.hardReset (s : State) : State :=
  { s.clear with response := none }

/-! ## The checks before a command runs -/

/-- The three ways a step can end. -/
abbrev Result := Host.Outcome State Fault Refusal

/-- R124 step 1: while `FLT = 1` a command that is not `RST` is refused. -/
def gate (s : State) (run : Result) : Result :=
  if s.FLT then .next s.refuse else run

/-- A rule that reads `A` runs only where `A` has a legal value, 0..128; elsewhere the machine is stuck (U9, log 7). -/
def withLegalA (s : State) (run : Result) : Result :=
  if s.sponge.A ≤ Config.H then run else .fault .absorbCounterOutOfRange

/-- R122, R124: a transaction that decodes to ILLEGAL. -/
def execIllegal (s : State) : Result := gate s (.next (s.faultEntry .eIllegal))

/-! ## Inputs -/

/-- The oldest input not yet taken, and the state without it: the core takes inputs one at a time, in the order they are
delivered (R20, R45). -/
def State.takeInput (s : State) : Option (Input × State) :=
  match s.input with
  | [] => none
  | e :: rest => some (e, { s with input := rest })

/-- Nothing has been delivered: the core is idle, with all state retained (R131; log 5). -/
def State.idle (s : State) : State := s

end Sys2Proof.Machine
end

