-- ==== Sys2Proof/Machine/Mixing.lean ====
section
/-! DEFINITION. The internal operations Update, Whip, Crush and Shuffle (42_shuffle.md) and the two conditions under
which Shuffle runs (R84). None of them is a command. -/

namespace Sys2Proof.Machine

/-- R80, Update: the one core update step of all four call sites (R85). Each line sees the lines before it (R41). -/
def update (q : Sponge) : Sponge :=
  let i := q.I + q.W
  let j := q.K + q.S.read (q.J + q.S.read i)
  let k := i + q.K + q.S.read j
  { q with I := i, J := j, K := k, S := q.S.swap i j }

/-- R81, Whip: 512 Updates, then `W <- W + 2`. -/
def whip (q : Sponge) : Sponge :=
  let q' := update^[Config.whipSteps] q
  q'.setW (q'.W + Config.strideStep)

/-- R82: one pair of Crush; the comparison is unsigned and strict. -/
def crushPair (m : Memory) (v : Nat) : Memory :=
  if m.read (crushLow v) > m.read (crushHigh v) then m.swap (crushLow v) (crushHigh v) else m

/-- R82: the pairs `v = 0..127` in ascending order; `v` is a private counter, not the register `I` (C4). -/
def crushPairs (m : Memory) : Memory := (List.range Config.crushPairs).foldl crushPair m

/-- R82, Crush: reads and writes `S` only. -/
def crush (q : Sponge) : Sponge := q.setS (crushPairs q.S)

/-- R83, Shuffle: `Whip; Crush; Whip; Crush; Whip`, then `A <- 0`. -/
def shuffle (q : Sponge) : Sponge :=
  (whip (crush (whip (crush (whip q))))).setA 0

/-- R84, the absorb side: Shuffle when `A == 128`. -/
def shuffleIfFull (q : Sponge) : Sponge :=
  if q.A = Config.H then shuffle q else q

/-- R84, the output side, shuffle-if-pending: Shuffle when `A > 0`. -/
def shuffleIfPending (q : Sponge) : Sponge :=
  if q.A > 0 then shuffle q else q

end Sys2Proof.Machine
end

