-- ==== Sys2Proof/Machine/Absorb.lean ====
section
/-! DEFINITION. The absorb commands `ABS` and `ABSTOP`, with AbsorbNibble and AbsorbByte (41_absorb.md). -/

namespace Sys2Proof.Machine

/-- R70, AbsorbNibble: Shuffle first when `A == 128`, then `swap(S[A], S[128 + v])`, then `A <- A + 1`. -/
def absorbNibble (q : Sponge) (v : Nibble) : Sponge :=
  let q' := shuffleIfFull q
  (q'.setS (q'.S.swap q'.A (absorbTarget v))).setA (q'.A + 1)

/-- R71, AbsorbByte: the low nibble first, then the high nibble (C1). -/
def absorbByte (q : Sponge) (b : Byte) : Sponge :=
  absorbNibble (absorbNibble q (lowNibble b)) (highNibble b)

/-- R72: the bytes one at a time, in increasing position (R38). -/
def absorb (q : Sponge) (data : List Byte) : Sponge := data.foldl absorbByte q

/-- R74: AbsorbNibble without the swap. -/
def absorbStop (q : Sponge) : Sponge :=
  let q' := shuffleIfFull q
  q'.setA (q'.A + 1)

/-- R72, `ABS`; with an empty payload it changes nothing and runs no Shuffle (R73), so it does not read `A`. -/
def execAbs (data : List Byte) (s : State) : Result :=
  gate s (if data = [] then .next (s.complete s.sponge [])
    else withLegalA s (.next (s.complete (absorb s.sponge data) [])))

/-- R74, `ABSTOP`. -/
def execAbstop (s : State) : Result :=
  gate s (withLegalA s (.next (s.complete (absorbStop s.sponge) [])))

end Sys2Proof.Machine
end

