-- ==== Sys2Proof/Machine/Reset.lean ====
section
/-! DEFINITION. The `RST` command (40_reset_cmd.md). -/

namespace Sys2Proof.Machine

/-- R65, R66: `RST` is accepted in every state, also with `FLT = 1`, and never fails. -/
def execRst (s : State) : Result := .next (s.clear.complete Sponge.reset [])

end Sys2Proof.Machine
end

