-- ==== Sys2Proof/Machine/Squeeze.lean ====
section
/-! DEFINITION. The output commands `DRIP` and `SQZ`, with the Output step and DripStep (43_squeeze.md). -/

namespace Sys2Proof.Machine

/-- R90, Output: `Z <- S[J + S[I + S[Z + K]]]`; nothing else changes. The byte returned is the new `Z`. -/
def output (q : Sponge) : Sponge :=
  q.setZ (q.S.read (q.J + q.S.read (q.I + q.S.read (q.Z + q.K))))

/-- R91, DripStep: Update, then Output; the byte emitted is the new `Z`. -/
def dripStep (q : Sponge) : Sponge := output (update q)

/-- `n` DripSteps: the sponge after them and the bytes emitted, first one first (R38, R93). -/
def dripSteps : Nat → Sponge → Sponge × List Byte
  | 0, q => (q, [])
  | n + 1, q =>
    let q' := dripStep q
    let r := dripSteps n q'
    (r.1, q'.Z :: r.2)

/-- R92, `DRIP`: shuffle-if-pending, then one DripStep. -/
def execDrip (s : State) : Result :=
  gate s (withLegalA s
    (let q := dripStep (shuffleIfPending s.sponge)
     .next (s.complete q [q.Z])))

/-- R93, R94, `SQZ`: shuffle-if-pending once, also for `n = 0`, then `n` DripSteps. -/
def execSqz (n : Nat) (s : State) : Result :=
  gate s (withLegalA s
    (let r := dripSteps n (shuffleIfPending s.sponge)
     .next (s.complete r.1 r.2)))

end Sys2Proof.Machine
end

