-- ==== Sys2Proof/Machine/Xor.lean ====
section
/-! DEFINITION. The XOR output stage, command `XORKS` (44_xorkeystream.md). -/

namespace Sys2Proof.Machine

/-- R100: each source byte XOR the byte of one DripStep, in order; the sponge after them and the bytes emitted. -/
def xorSteps : List Byte → Sponge → Sponge × List Byte
  | [], q => (q, [])
  | b :: src, q =>
    let q' := dripStep q
    let r := xorSteps src q'
    (r.1, (b ^^^ q'.Z) :: r.2)

/-- R100 to R104, `XORKS`: the length check comes first (R101), then shuffle-if-pending once, also for an empty
payload (R103), then the XOR steps. -/
def execXorks (dcap : Nat) (src : List Byte) (s : State) : Result :=
  gate s (if dcap < src.length then .next (s.faultEntry .eLen)
    else withLegalA s
      (let r := xorSteps src (shuffleIfPending s.sponge)
       .next (s.complete r.1 r.2)))

end Sys2Proof.Machine
end

