-- ==== Sys2Proof/Machine/Dispatch.lean ====
section
/-! DEFINITION. One arm per command. -/

namespace Sys2Proof.Machine

def exec (i : Instr) (s : State) : Host.Outcome State Fault Refusal :=
  match i with
  | .rst => Sys2Proof.Machine.execRst s
  | .abs data => Sys2Proof.Machine.execAbs data s
  | .abstop => Sys2Proof.Machine.execAbstop s
  | .drip => Sys2Proof.Machine.execDrip s
  | .sqz n => Sys2Proof.Machine.execSqz n s
  | .xorks dcap src => Sys2Proof.Machine.execXorks dcap src s

end Sys2Proof.Machine
end

