-- ==== Sys2Proof/Machine/Transact.lean ====
section
/-! DEFINITION. One transaction, from its bits to its response (60_exceptions.md R124), and what the core does with each
kind of input. -/

namespace Sys2Proof.Machine

/-- R124: decode, then the checks in their order. The `FLT` gate of step 1 stands in `execIllegal` and in every meaning
but that of `RST`. -/
def transact (t : Transaction) (s : State) : Result :=
  match decode t with
  | .ok i => exec i s
  | .error _ => execIllegal s

/-- A transaction is executed to completion (R23); a hardware reset, also one that strikes during a command, leaves the reset
state and no response (R140). -/
def receive : Input → State → Result
  | .transaction t, s => transact t s
  | .hardwareReset, s => .next s.hardReset
  | .resetDuring _, s => .next s.hardReset

end Sys2Proof.Machine
end

