-- ==== Sys2Proof/Machine/Step.lean ====
section
/-! DEFINITION. One step of the machine: take the oldest input and act on it. The core has no program counter and fetches
nothing from memory (10_state.md R20, 20_memory.md R44). -/

namespace Sys2Proof.Machine

/-- One step. With nothing delivered the core is idle. -/
def step (s : State) : Host.Outcome State Fault Refusal :=
  match s.takeInput with
  | none => .next s.idle
  | some (e, s') => receive e s'

/-- `s` with the transaction of an opcode-table word delivered as its next input (log 11). -/
def State.withFetchWord (s : State) (nbits w : Nat) : State :=
  { s with input := .transaction (tableTransaction nbits w) :: s.input }

end Sys2Proof.Machine
end

