-- ==== Sys2Proof/Machine/Cores.lean ====
section
/-! DEFINITION. Several cores (60_exceptions.md R132): the product of independent single-core models (log 19). -/

namespace Sys2Proof.Machine

/-- Core `k` of the list takes a step; the cores share nothing, so no other core changes. A number that names no core
changes nothing. -/
def stepCore (k : Nat) (cores : List State) : Host.Outcome (List State) Fault Refusal :=
  match cores[k]? with
  | none => .next cores
  | some s =>
    match step s with
    | .next t => .next (cores.set k t)
    | .fault r => .fault r
    | .refused r => .refused r

end Sys2Proof.Machine
end

