-- ==== Sys2Proof/Machine/Flags.lean ====
section
/-! DEFINITION. The one flag `FLT`, the status register that shows it, and the status codes (10_state.md R17, R18;
30_encoding.md R52). The core has no condition codes: `A == 128`, `A > 0` and the Crush comparison leave no flag. -/

namespace Sys2Proof.Machine

/-- R18: the status register, one bit, `STATUS[0] = FLT`. -/
def State.STATUS (s : State) : BitVec 1 := BitVec.ofBool s.FLT

/-- R52: the 4-bit code of a status. -/
def Status.code : Status → BitVec 4
  | .ok => 0x0
  | .eLen => 0x1
  | .eIllegal => 0x2
  | .eFaulted => 0x3

/-- R52, U6: the status of a 4-bit code; the reserved codes 0x4 to 0xF have none. -/
def Status.ofCode (c : BitVec 4) : Option Status :=
  if c = 0x0 then some .ok
  else if c = 0x1 then some .eLen
  else if c = 0x2 then some .eIllegal
  else if c = 0x3 then some .eFaulted
  else none

/-- R52, last column: `FLT` after a command that was answered with this status. -/
def Status.fltAfter : Status → Bool
  | .ok => false
  | .eLen => true
  | .eIllegal => true
  | .eFaulted => true

end Sys2Proof.Machine
end

