-- ==== Sys2Proof/Machine/Sequences.lean ====
section
/-! DEFINITION. What a host issues: the pseudo-instructions of 30_encoding.md R57 and the adapter sequences of
47_host_sequences.md (R110 to R116), as lists of commands, and the run of such a list on one core. They define no
command of the core; every command in them is one transaction long. -/

namespace Sys2Proof.Machine

/-- The host issues the commands one at a time, the next after the response to the one before (R144); the state after the
last and the responses in order. -/
def issue : List Instr → State → Host.Outcome (State × List Response) Fault Refusal
  | [], s => .next (s, [])
  | i :: is, s =>
    match exec i s with
    | .fault r => .fault r
    | .refused r => .refused r
    | .next t =>
      match issue is t with
      | .fault r => .fault r
      | .refused r => .refused r
      | .next u => .next (u.1, t.response.toList ++ u.2)

/-- The output bytes of a run of responses, concatenated in order (R57). -/
def outputs (rs : List Response) : List Byte := rs.flatMap fun r => r.out

/-- The bytes cut into consecutive chunks of at most `size` bytes; `fuel` bounds the number of chunks. -/
def chunks (size : Nat) : Nat → List Byte → List (List Byte)
  | 0, _ => []
  | fuel + 1, xs => if xs = [] then [] else xs.take size :: chunks size fuel (xs.drop size)

/-- `ABSORB` (R57): one `ABS` per chunk of at most 4095 bytes; for an empty sequence one `ABS -` (log 16). -/
def absorbSeq (data : List Byte) : List Instr :=
  if data = [] then [.abs []] else (chunks Config.maxLen data.length data).map .abs

/-- `SQUEEZE` (R57): for 0 exactly one `SQZ 0`; else counts of at most 4095 that sum to `n`, full ones first (log 16). -/
def squeezeSeq (n : Nat) : List Instr :=
  if n = 0 then [.sqz 0]
  else List.replicate (n / Config.maxLen) (.sqz Config.maxLen) ++
    (if n % Config.maxLen = 0 then [] else [.sqz (n % Config.maxLen)])

/-- `XORSTREAM` (R57, R116): the host compares the whole lengths first and issues nothing (`none`) when the destination is
shorter; then one `XORKS` per chunk with the chunk's own length as its `dcap`. -/
def xorStreamSeq (dcap : Nat) (src : List Byte) : Option (List Instr) :=
  if dcap < src.length then none
  else if src = [] then some [.xorks (min dcap Config.maxLen) []]
  else some ((chunks Config.maxLen src.length src).map fun c => .xorks c.length c)

/-- The base-256 digits of `r`, most significant first, in front of `acc`; `fuel` bounds their number. -/
def encDigits : Nat → Nat → List Byte → List Byte
  | 0, _, acc => acc
  | fuel + 1, r, acc => if r = 0 then acc else encDigits fuel (r / 256) (BitVec.ofNat 8 r :: acc)

/-- R111: `enc(r)`, the minimal big-endian encoding of the digest size; `enc(0)` is empty. -/
def encSize (r : Nat) : List Byte := encDigits r r []

/-- `KEY` (R57, R114): `RST`, then the key absorbed. -/
def keySeq (key : List Byte) : List Instr := .rst :: absorbSeq key

/-- `HASH` (R57, R110): the data, `ABSTOP`, the digest size, the squeeze. -/
def hashSeq (data : List Byte) (r : Nat) : List Instr :=
  absorbSeq data ++ [.abstop] ++ absorbSeq (encSize r) ++ squeezeSeq r

/-- R112: the host's hash call with a size that may be negative: a negative size never reaches the core and the digest is
empty (log 17). -/
def hashCall (data : List Byte) (r : Int) : List Instr :=
  if r < 0 then [] else hashSeq data r.toNat

end Sys2Proof.Machine
end

