-- ==== Sys2Proof/Safety.lean ====
section
/-! DEFINITION. What claims call a good state: the invariants the spec states for every observable point (R11, R13, R15,
R18, R51), in the terms of the model. -/

namespace Sys2Proof.Machine

/-- The spec's data invariants: `S` is held in canonical form and is a permutation (R11), `W` is odd (R13), `A` is at most
128 (R15). -/
structure Sponge.Inv (q : Sponge) : Prop where
  canonical   : q.S.wf
  permutation : q.S.IsPermutation
  strideOdd   : q.W.toNat % 2 = 1
  counter     : q.A ≤ Config.H

/-- R18, R51, R52: the last response tells `FLT`, and carries no byte unless its status is `OK`. -/
def State.ResponseTellsFault (s : State) : Prop :=
  ∀ r, s.response = some r → s.FLT = r.status.fltAfter ∧ (r.status ≠ .ok → r.out = [])

/-- A good state of the machine. -/
structure State.Inv (s : State) : Prop where
  sponge : s.sponge.Inv
  port   : s.ResponseTellsFault

end Sys2Proof.Machine
end

