-- ==== Sys2Proof/Certificates/Slice0/Obligations.lean ====
section
/-! DEFINITION. The statements for the provers, in the order of the spec's files. A statement that names a completed
command says `exec … = .next t` in its conclusion, under hypotheses on the state and the operands alone: `FLT = 0`, and
`A ≤ 128` where the command's rule reads `A` (log 7). -/

open Sys2Proof Sys2Proof.Machine

/-! ## Memory (20_memory.md) -/

/-- R33: a swap exchanges the two cells, leaves every other cell alone, and changes nothing when the cells are the same; and
every step either takes a reset (a legal `RST`, or hardware reset) and leaves the reset sponge, or changes the array by
swaps alone. -/
def Obligations.SwapIsTheOnlyChangeOfTheArray : Prop :=
  (∀ (m : Memory) (x y : Byte),
    (m.swap x y).read x = m.read y ∧ (m.swap x y).read y = m.read x ∧
    (∀ z, z ≠ x → z ≠ y → (m.swap x y).read z = m.read z) ∧
    (x = y → ∀ z, (m.swap x y).read z = m.read z)) ∧
  (∀ s t : State, step s = .next t →
    (t.sponge = Sponge.reset ∧ ∃ e rest, s.input = e :: rest ∧
      (e = .hardwareReset ∨ (∃ tr, e = .resetDuring tr) ∨ (∃ tr, e = .transaction tr ∧ decode tr = .ok .rst))) ∨
    ∃ pairs : List (Byte × Byte), t.sponge.S = pairs.foldl (fun m p => m.swap p.1 p.2) s.sponge.S)

/-- Two arrays in canonical form with the same 256 bytes are the same data, and a swap keeps the form (the model's own
representation, log 8). -/
def Obligations.CanonicalMemoryIsItsBytes : Prop :=
  (∀ m n : Memory, m.wf → n.wf → ((∀ x, m.read x = n.read x) ↔ m = n)) ∧
  (∀ (m : Memory) (x y : Byte), m.wf → (m.swap x y).wf)

/-! ## Encoding (30_encoding.md) -/

/-- R50, with the fields as the arithmetic of R46: each of the six conditions gives its command, and a transaction
that meets none of them is rejected. -/
def Obligations.DecodeIsTheDecisionList : Prop :=
  ∀ t : Transaction,
    let op := t.header.toNat / 2 ^ 24
    let dcap := t.header.toNat / 2 ^ 12 % 2 ^ 12
    let len := t.header.toNat % 2 ^ 12
    let n := t.payload.length
    (op = 1 ∧ dcap = 0 ∧ len = 0 ∧ n = 0 → decode t = .ok .rst) ∧
    (op = 2 ∧ dcap = 0 ∧ n = len → decode t = .ok (.abs t.payload)) ∧
    (op = 3 ∧ dcap = 0 ∧ len = 0 ∧ n = 0 → decode t = .ok .abstop) ∧
    (op = 4 ∧ dcap = 0 ∧ len = 0 ∧ n = 0 → decode t = .ok .drip) ∧
    (op = 5 ∧ dcap = 0 ∧ n = 0 → decode t = .ok (.sqz len)) ∧
    (op = 6 ∧ n = len → decode t = .ok (.xorks dcap t.payload)) ∧
    (¬ (op = 1 ∧ dcap = 0 ∧ len = 0 ∧ n = 0) ∧ ¬ (op = 2 ∧ dcap = 0 ∧ n = len) ∧
      ¬ (op = 3 ∧ dcap = 0 ∧ len = 0 ∧ n = 0) ∧ ¬ (op = 4 ∧ dcap = 0 ∧ len = 0 ∧ n = 0) ∧
      ¬ (op = 5 ∧ dcap = 0 ∧ n = 0) ∧ ¬ (op = 6 ∧ n = len) → ∃ e, decode t = .error e)

/-- R48: the match / mask pairs say the same as the table of fields, and no header has two of the patterns. -/
def Obligations.LegalHeadersAreSixDisjointPatterns : Prop :=
  (∀ h : Header, Header.legal h = true ↔
    (Header.op h = 0x01 ∧ Header.dcap h = 0 ∧ Header.len h = 0) ∨
    (Header.op h = 0x02 ∧ Header.dcap h = 0) ∨
    (Header.op h = 0x03 ∧ Header.dcap h = 0 ∧ Header.len h = 0) ∨
    (Header.op h = 0x04 ∧ Header.dcap h = 0 ∧ Header.len h = 0) ∨
    (Header.op h = 0x05 ∧ Header.dcap h = 0) ∨
    Header.op h = 0x06) ∧
  opcodeTable.Pairwise (fun p r => ∀ h, ¬ (p.matchesHeader h = true ∧ r.matchesHeader h = true))

/-- What is decoded is exactly what is legal (R48) and well framed (R49). -/
def Obligations.DecodedIffLegalAndWellFramed : Prop :=
  ∀ t : Transaction, (∃ i, decode t = .ok i) ↔ (Header.legal t.header = true ∧ t.wellFramed = true)

/-- R59: `decode(encode(c)) = c` for every encodable command, with every operand at every value. -/
def Obligations.DecodeOfEncodeIsTheCommand : Prop :=
  ∀ i : Instr, i.wellFormed = true → decode (encode i) = .ok i

/-- R59: `encode(decode(h, p)) = (h, p)` for every transaction that decodes, and what decodes is encodable. -/
def Obligations.EncodeOfDecodeIsTheTransaction : Prop :=
  ∀ (t : Transaction) (i : Instr), decode t = .ok i → encode i = t ∧ i.wellFormed = true

/-- A few words written out from R46, R47: each decodes to its command. -/
def Obligations.SampleWordsDecode : Prop :=
  decode ⟨0b00000001000000000000000000000000, []⟩ = .ok .rst ∧
  decode ⟨0b00000010000000000000000000000011, [0x41, 0x42, 0x43]⟩ = .ok (.abs [0x41, 0x42, 0x43]) ∧
  decode ⟨0b00000011000000000000000000000000, []⟩ = .ok .abstop ∧
  decode ⟨0b00000100000000000000000000000000, []⟩ = .ok .drip ∧
  decode ⟨0b00000101000000000000000000001000, []⟩ = .ok (.sqz 8) ∧
  decode ⟨0b00000110000000000101000000000001, [0x61]⟩ = .ok (.xorks 5 [0x61]) ∧
  decode ⟨0, []⟩ = .error .reservedOpcode

/-- R52: the codes of the four statuses, no status for a reserved code, and `FLT` after each, as the table has it and as every
command leaves it. -/
def Obligations.StatusCodesAreTheTable : Prop :=
  Status.code .ok = 0x0 ∧ Status.code .eLen = 0x1 ∧ Status.code .eIllegal = 0x2 ∧ Status.code .eFaulted = 0x3 ∧
  (∀ e : Status, Status.ofCode e.code = some e) ∧
  (∀ c : BitVec 4, (Status.ofCode c).isSome = true ↔ c ≤ 0x3) ∧
  (∀ e : Status, e.fltAfter = false ↔ e = .ok) ∧
  (∀ (i : Instr) (s t : State), exec i s = .next t → ∃ r, t.response = some r ∧ t.FLT = r.status.fltAfter)

/-- R51: the response to a transaction has, with status `OK`, an output of the length R47 gives the command; with every other
status the output is empty. -/
def Obligations.OutputHasTheTableLength : Prop :=
  ∀ (s u : State) (t : Transaction) (rest : List Input), s.input = .transaction t :: rest → step s = .next u →
    ∃ r, u.response = some r ∧
      (r.status = .ok → ∃ i, decode t = .ok i ∧ r.out.length =
        match i with
        | .rst => 0
        | .abs _ => 0
        | .abstop => 0
        | .drip => 1
        | .sqz n => n
        | .xorks _ src => src.length) ∧
      (r.status ≠ .ok → r.out = [])

/-! ## RST (40_reset_cmd.md, 10_state.md R22) -/

/-- R22: after the `RST` command, after hardware reset, and in `State.reset`, the state is the one constant. (That `I`,
`J`, `K`, `A` are 0 is the spec's decision D1, written into R22.) -/
def Obligations.ResetValuesAreTheConstant : Prop :=
  (∀ s : State, ∃ t, exec .rst s = .next t ∧ t.sponge = State.reset.sponge ∧ t.FLT = State.reset.FLT) ∧
  (∀ (s : State) (rest : List Input), s.input = .hardwareReset :: rest →
    ∃ t, step s = .next t ∧ t.sponge = State.reset.sponge ∧ t.FLT = State.reset.FLT) ∧
  (∀ x : Byte, State.reset.sponge.S.read x = x) ∧
  State.reset.sponge.I = 0 ∧ State.reset.sponge.J = 0 ∧ State.reset.sponge.K = 0 ∧ State.reset.sponge.W = 1 ∧
  State.reset.sponge.Z = 0 ∧ State.reset.sponge.A = 0 ∧ State.reset.FLT = false

/-- R65: the encoding of `RST`, and that no other transaction with its opcode decodes; `RST` runs in every state, writes
every register and every cell, answers `OK` with no byte; the inputs not yet taken stay. -/
def Obligations.RstCompletesInEveryState : Prop :=
  encode .rst = ⟨0x01000000, []⟩ ∧
  (∀ t : Transaction, Header.op t.header = 0x01 → t ≠ ⟨0x01000000, []⟩ → ∃ e, decode t = .error e) ∧
  ∀ s : State, ∃ t, exec .rst s = .next t ∧
    (∀ x, t.sponge.S.read x = x) ∧ t.sponge.I = 0 ∧ t.sponge.J = 0 ∧ t.sponge.K = 0 ∧ t.sponge.W = 1 ∧
    t.sponge.Z = 0 ∧ t.sponge.A = 0 ∧ t.FLT = false ∧ t.response = some ⟨.ok, []⟩ ∧ t.input = s.input

/-- R67: any command sequence run after `RST` gives the same responses, and ends in the same sponge and `FLT`, whatever ran
before the `RST`; and `RST; RST` equals `RST`. -/
def Obligations.RstForgetsEverything : Prop :=
  (∀ (cs : List Instr) (s s' t : State) (rs : List Response), issue (.rst :: cs) s = .next (t, rs) →
    ∃ t', issue (.rst :: cs) s' = .next (t', rs) ∧ t'.sponge = t.sponge ∧ t'.FLT = t.FLT) ∧
  (∀ s t : State, exec .rst s = .next t → exec .rst t = .next t)

/-! ## ABS and ABSTOP (41_absorb.md) -/

/-- R70: AbsorbNibble: Shuffle first when `A = 128`, then the swap of cell `A` with cell `128 + v`, then the increment;
`Z` is not touched and `A` ends in 1..128. -/
def Obligations.AbsorbNibbleSwapsAndCounts : Prop :=
  ∀ (q : Sponge) (v : Nibble), q.A ≤ 128 →
    let p := if q.A = 128 then shuffle q else q
    let r := absorbNibble q v
    r.S.read p.A = p.S.read (128 + v.setWidth 8) ∧
    r.S.read (128 + v.setWidth 8) = p.S.read p.A ∧
    (∀ x, x ≠ p.A → x ≠ 128 + v.setWidth 8 → r.S.read x = p.S.read x) ∧
    r.A = p.A + 1 ∧ r.I = p.I ∧ r.J = p.J ∧ r.K = p.K ∧ r.W = p.W ∧ r.Z = q.Z ∧
    1 ≤ r.A.toNat ∧ r.A.toNat ≤ 128

/-- R71, R72: the encoding of `ABS`; its refusal with `FLT = 1`; else it runs AbsorbNibble on `b % 16` and then on `b / 16` for
each byte in order, answers `OK` with no byte, and writes no flag. -/
def Obligations.AbsAbsorbsLowNibbleFirst : Prop :=
  (∀ data : List Byte, encode (.abs data) = ⟨BitVec.ofNat 32 (0x02000000 + data.length), data⟩) ∧
  (∀ (s : State) (data : List Byte), s.FLT = true →
    exec (.abs data) s = .next { s with response := some ⟨.eFaulted, []⟩ }) ∧
  ∀ (s : State) (data : List Byte), s.FLT = false → (data = [] ∨ s.sponge.A ≤ 128) →
    ∃ t, exec (.abs data) s = .next t ∧
      t.sponge = (data.flatMap fun b => [BitVec.ofNat 4 (b.toNat % 16), BitVec.ofNat 4 (b.toNat / 16)]).foldl
        absorbNibble s.sponge ∧
      t.FLT = false ∧ t.response = some ⟨.ok, []⟩ ∧ t.input = s.input

/-- R73: the header `0x02000000` with no payload is `ABS` of nothing, which changes nothing and answers `OK`, whatever `A` is. -/
def Obligations.AbsOfNothingChangesNothing : Prop :=
  decode ⟨0x02000000, []⟩ = .ok (.abs []) ∧
  ∀ s : State, s.FLT = false → exec (.abs []) s = .next { s with response := some ⟨.ok, []⟩ }

/-- R75: absorbing a concatenation is absorbing its parts one after the other, from every state. -/
def Obligations.AbsSplitsAnywhere : Prop :=
  ∀ (s t : State) (x y : List Byte), exec (.abs x) s = .next t → exec (.abs (x ++ y)) s = exec (.abs y) t

/-- R76: from `A = a0`, `n ≥ 1` bytes run `floor((a0 + 2n - 1) / 128)` Shuffles, each of which adds 6 to `W`, and the counter
ends where that count says. -/
def Obligations.AbsShufflesWhereTheCountSays : Prop :=
  ∀ (s : State) (data : List Byte), s.FLT = false → s.sponge.A ≤ 128 → data ≠ [] →
    ∃ t, exec (.abs data) s = .next t ∧
      t.sponge.A.toNat = (s.sponge.A.toNat + 2 * data.length - 1) % 128 + 1 ∧
      t.sponge.W = s.sponge.W + BitVec.ofNat 8 (6 * ((s.sponge.A.toNat + 2 * data.length - 1) / 128))

/-- The frame of `ABS` while no Shuffle falls due: pointers, stride, `Z`, `FLT` and the inputs unchanged, `A` advanced by two a
byte, and every cell unchanged but the cells the swaps address: `A + 2p`, `A + 2p + 1` and the targets of the byte's
nibbles. -/
def Obligations.AbsFrameWithoutShuffle : Prop :=
  ∀ (s : State) (data : List Byte), s.FLT = false → s.sponge.A.toNat + 2 * data.length ≤ 128 →
    ∃ t, exec (.abs data) s = .next t ∧
      t.sponge.I = s.sponge.I ∧ t.sponge.J = s.sponge.J ∧ t.sponge.K = s.sponge.K ∧ t.sponge.W = s.sponge.W ∧
      t.sponge.Z = s.sponge.Z ∧ t.sponge.A.toNat = s.sponge.A.toNat + 2 * data.length ∧ t.FLT = false ∧
      t.input = s.input ∧
      ∀ x : Byte,
        (∀ p, (h : p < data.length) →
          x.toNat ≠ s.sponge.A.toNat + 2 * p ∧ x.toNat ≠ s.sponge.A.toNat + 2 * p + 1 ∧
          x ≠ absorbTarget (lowNibble data[p]) ∧ x ≠ absorbTarget (highNibble data[p])) →
        t.sponge.S.read x = s.sponge.S.read x

/-- R74: the encoding of `ABSTOP`; its refusal with `FLT = 1`; else it adds 1 to `A`, after a Shuffle when `A = 128`; without
the Shuffle nothing else changes; `OK`, no byte. -/
def Obligations.AbstopCountsWithoutSwap : Prop :=
  encode .abstop = ⟨0x03000000, []⟩ ∧
  (∀ s : State, s.FLT = true → exec .abstop s = .next { s with response := some ⟨.eFaulted, []⟩ }) ∧
  ∀ s : State, s.FLT = false → s.sponge.A ≤ 128 →
    ∃ t, exec .abstop s = .next t ∧
      (s.sponge.A ≠ 128 → t.sponge = s.sponge.setA (s.sponge.A + 1)) ∧
      (s.sponge.A = 128 → t.sponge = (shuffle s.sponge).setA 1) ∧
      t.FLT = false ∧ t.response = some ⟨.ok, []⟩ ∧ t.input = s.input

/-- R14: absorbing does not change `Z`, nor does a Shuffle. -/
def Obligations.AbsorbingKeepsZ : Prop :=
  (∀ q : Sponge, (shuffle q).Z = q.Z) ∧
  (∀ (s t : State) (data : List Byte), exec (.abs data) s = .next t → t.sponge.Z = s.sponge.Z) ∧
  (∀ s t : State, exec .abstop s = .next t → t.sponge.Z = s.sponge.Z)

/-! ## Update, Whip, Crush, Shuffle (42_shuffle.md) -/

/-- R80: the four lines of Update, each seeing the lines before it; `W`, `Z`, `A` and every cell but the two swapped are
unchanged. -/
def Obligations.UpdateIsTheFourLines : Prop :=
  ∀ q : Sponge,
    let i := q.I + q.W
    let j := q.K + q.S.read (q.J + q.S.read i)
    let k := i + q.K + q.S.read j
    let r := update q
    r.I = i ∧ r.J = j ∧ r.K = k ∧
    r.S.read i = q.S.read j ∧ r.S.read j = q.S.read i ∧
    (∀ x, x ≠ i → x ≠ j → r.S.read x = q.S.read x) ∧
    r.W = q.W ∧ r.Z = q.Z ∧ r.A = q.A

/-- R81, R83: `S`, `J` and `K` after Whip are those after 512 Updates, and Whip leaves `I` and adds 2 to `W`, which the Updates
leave alone; `S`, `J` and `K` after Shuffle are those after `Whip; Crush; Whip; Crush; Whip`, and Shuffle leaves `I` and `Z`,
adds 6 to `W` and clears `A`. -/
def Obligations.WhipAndShuffleRunTheirSteps : Prop :=
  (∀ q : Sponge,
    (whip q).S = (update^[512] q).S ∧ (whip q).J = (update^[512] q).J ∧ (whip q).K = (update^[512] q).K ∧
    (whip q).I = q.I ∧ (whip q).W = q.W + 2 ∧ (whip q).Z = q.Z ∧ (whip q).A = q.A ∧
    ∀ n, (update^[n] q).W = q.W) ∧
  (∀ q : Sponge,
    let p := whip (crush (whip (crush (whip q))))
    (shuffle q).S = p.S ∧ (shuffle q).J = p.J ∧ (shuffle q).K = p.K ∧
    (shuffle q).I = q.I ∧ (shuffle q).W = q.W + 6 ∧ (shuffle q).Z = q.Z ∧ (shuffle q).A = 0)

/-- R86 (d), (c): with an odd stride the 512 Updates of a Whip bring `I` to every index exactly twice; 128 Whips bring `W`
back, from every sponge. -/
def Obligations.StrideVisitsEveryCellTwiceAndComesBack : Prop :=
  (∀ (q : Sponge) (x : Byte), q.W.toNat % 2 = 1 →
    ((List.range 512).filter fun n => (update^[n + 1] q).I == x).length = 2) ∧
  (∀ q : Sponge, (whip^[128] q).W = q.W)

/-- R82: Crush puts the smaller of each pair `(v, 255 - v)` in the lower cell and the larger in the upper, and touches no
register; applied twice it is the same as once; on a permutation the order is strict. -/
def Obligations.CrushOrdersEveryPair : Prop :=
  ∀ q : Sponge,
    (∀ v : Byte, v < 128 →
      (crush q).S.read v = (if q.S.read v > q.S.read (255 - v) then q.S.read (255 - v) else q.S.read v) ∧
      (crush q).S.read (255 - v) = (if q.S.read v > q.S.read (255 - v) then q.S.read v else q.S.read (255 - v))) ∧
    ((crush q).I = q.I ∧ (crush q).J = q.J ∧ (crush q).K = q.K ∧ (crush q).W = q.W ∧ (crush q).Z = q.Z ∧
      (crush q).A = q.A) ∧
    (∀ x, (crush (crush q)).S.read x = (crush q).S.read x) ∧
    (q.S.IsPermutation → ∀ v : Byte, v < 128 → (crush q).S.read v < (crush q).S.read (255 - v))

/-! ## DRIP and SQZ (43_squeeze.md) -/

/-- R92 (with R80, R90, R91): the encoding of `DRIP`; its refusal with `FLT = 1`; with `A = 0` one Update and one Output, whose
byte is the answer; with `A > 0` the same after one Shuffle, which clears `A`. -/
def Obligations.DripRunsOneUpdateAndOneOutput : Prop :=
  encode .drip = ⟨0x04000000, []⟩ ∧
  (∀ s : State, s.FLT = true → exec .drip s = .next { s with response := some ⟨.eFaulted, []⟩ }) ∧
  ∀ s : State, s.FLT = false → s.sponge.A ≤ 128 →
    (s.sponge.A > 0 → exec .drip s = exec .drip { s with sponge := shuffle s.sponge } ∧
      (shuffle s.sponge).A = 0 ∧ ∃ t, exec .drip s = .next t ∧ t.sponge.A = 0) ∧
    (s.sponge.A = 0 →
      let q := s.sponge
      let i := q.I + q.W
      let j := q.K + q.S.read (q.J + q.S.read i)
      let k := i + q.K + q.S.read j
      ∃ t, exec .drip s = .next t ∧
        t.sponge.I = i ∧ t.sponge.J = j ∧ t.sponge.K = k ∧ t.sponge.W = q.W ∧ t.sponge.A = 0 ∧
        t.sponge.S.read i = q.S.read j ∧ t.sponge.S.read j = q.S.read i ∧
        (∀ x, x ≠ i → x ≠ j → t.sponge.S.read x = q.S.read x) ∧
        t.sponge.Z =
          t.sponge.S.read (j + t.sponge.S.read (i + t.sponge.S.read (q.Z + k))) ∧
        t.response = some ⟨.ok, [t.sponge.Z]⟩ ∧ t.FLT = false ∧ t.input = s.input)

/-- R93: the encoding of `SQZ`; its refusal with `FLT = 1`; else it makes the shuffle-if-pending check once and then emits the
`Z` of each of `n` DripSteps, in order. -/
def Obligations.SqzEmitsTheDripSteps : Prop :=
  (∀ n : Nat, encode (.sqz n) = ⟨BitVec.ofNat 32 (0x05000000 + n), []⟩) ∧
  (∀ (s : State) (n : Nat), s.FLT = true → exec (.sqz n) s = .next { s with response := some ⟨.eFaulted, []⟩ }) ∧
  ∀ (s : State) (n : Nat), s.FLT = false → s.sponge.A ≤ 128 →
    let q := if s.sponge.A > 0 then shuffle s.sponge else s.sponge
    ∃ t, exec (.sqz n) s = .next t ∧ t.sponge = dripStep^[n] q ∧ t.sponge.A = 0 ∧
      t.response = some ⟨.ok, (List.range n).map fun p => (dripStep^[p + 1] q).Z⟩ ∧
      t.FLT = false ∧ t.input = s.input

/-- R94, R103: `SQZ 0` emits nothing and still runs the pending Shuffle when `A > 0`, and changes nothing when `A = 0` (the
reading of C7, decision D13); `XORKS` of nothing, with any capacity, is `SQZ 0` from every state. -/
def Obligations.ZeroLengthOutputsRunThePendingShuffle : Prop :=
  (∀ s : State, s.FLT = false → s.sponge.A ≤ 128 →
    ∃ t, exec (.sqz 0) s = .next t ∧ t.response = some ⟨.ok, []⟩ ∧ t.sponge.A = 0 ∧ t.FLT = false ∧
      (s.sponge.A > 0 → t.sponge = shuffle s.sponge) ∧ (s.sponge.A = 0 → t.sponge = s.sponge)) ∧
  (∀ (s : State) (dcap : Nat), exec (.xorks dcap []) s = exec (.sqz 0) s)

/-- R95: reads split anywhere, and `SQZ 1` is `DRIP`. -/
def Obligations.SqzSplitsAnywhere : Prop :=
  (∀ (s : State) (n m : Nat), s.FLT = false → s.sponge.A ≤ 128 →
    ∃ t u v o p, exec (.sqz n) s = .next t ∧ t.response = some ⟨.ok, o⟩ ∧
      exec (.sqz m) t = .next u ∧ u.response = some ⟨.ok, p⟩ ∧
      exec (.sqz (n + m)) s = .next v ∧ v.response = some ⟨.ok, o ++ p⟩ ∧
      v.sponge = u.sponge ∧ v.FLT = u.FLT) ∧
  (∀ s : State, exec (.sqz 1) s = exec .drip s)

/-- The frame of `SQZ` and `XORKS` when no Shuffle is pending: `W`, `A`, `FLT` and the inputs unchanged, and every cell
unchanged but the cells `I` and `J` address in one of the steps' swaps. -/
def Obligations.OutputFrameWithoutShuffle : Prop :=
  ∀ (s : State) (n : Nat), s.FLT = false → s.sponge.A = 0 →
    (∃ t, exec (.sqz n) s = .next t ∧ t.sponge.W = s.sponge.W ∧ t.sponge.A = 0 ∧ t.FLT = false ∧ t.input = s.input ∧
      ∀ x, (∀ p, p < n → x ≠ (dripStep^[p + 1] s.sponge).I ∧ x ≠ (dripStep^[p + 1] s.sponge).J) →
        t.sponge.S.read x = s.sponge.S.read x) ∧
    (∀ (dcap : Nat) (src : List Byte), src.length = n → n ≤ dcap →
      ∃ t, exec (.xorks dcap src) s = .next t ∧ t.sponge.W = s.sponge.W ∧ t.sponge.A = 0 ∧ t.FLT = false ∧
        t.input = s.input ∧
        ∀ x, (∀ p, p < n → x ≠ (dripStep^[p + 1] s.sponge).I ∧ x ≠ (dripStep^[p + 1] s.sponge).J) →
          t.sponge.S.read x = s.sponge.S.read x)

/-! ## XORKS (44_xorkeystream.md) -/

/-- R100, R104: the encoding of `XORKS`; its refusal with `FLT = 1`; `E_LEN` with `dcap < len`; else the shuffle-if-pending
check once, then source byte `p` XOR the `Z` of DripStep `p`; exactly `len` bytes. -/
def Obligations.XorksXorsTheKeystream : Prop :=
  (∀ (dcap : Nat) (src : List Byte),
    encode (.xorks dcap src) = ⟨BitVec.ofNat 32 (0x06000000 + dcap * 0x1000 + src.length), src⟩) ∧
  (∀ (s : State) (dcap : Nat) (src : List Byte), s.FLT = true →
    exec (.xorks dcap src) s = .next { s with response := some ⟨.eFaulted, []⟩ }) ∧
  (∀ (s : State) (dcap : Nat) (src : List Byte), s.FLT = false → dcap < src.length →
    exec (.xorks dcap src) s = .next { s with FLT := true, response := some ⟨.eLen, []⟩ }) ∧
  ∀ (s : State) (dcap : Nat) (src : List Byte), s.FLT = false → s.sponge.A ≤ 128 → src.length ≤ dcap →
    let q := if s.sponge.A > 0 then shuffle s.sponge else s.sponge
    ∃ t, exec (.xorks dcap src) s = .next t ∧ t.sponge = dripStep^[src.length] q ∧ t.sponge.A = 0 ∧
      t.response = some ⟨.ok,
        List.zipWith (fun b z => b ^^^ z) src ((List.range src.length).map fun p => (dripStep^[p + 1] q).Z)⟩ ∧
      t.FLT = false ∧ t.input = s.input

/-- R101: `dcap < len` raises `E_LEN` before anything else: no byte, `FLT` set, the sponge exactly as before, also with a
Shuffle pending; `dcap = len` and `dcap > len` are accepted. -/
def Obligations.XorksShortDestinationFaults : Prop :=
  (∀ (s : State) (dcap : Nat) (src : List Byte), s.FLT = false → dcap < src.length →
    exec (.xorks dcap src) s = .next { s with FLT := true, response := some ⟨.eLen, []⟩ }) ∧
  (∀ (s : State) (dcap : Nat) (src : List Byte), s.FLT = false → s.sponge.A ≤ 128 → src.length ≤ dcap →
    ∃ t out, exec (.xorks dcap src) s = .next t ∧ t.response = some ⟨.ok, out⟩ ∧ out.length = src.length ∧
      t.FLT = false)

/-- R106: `XORKS` leaves the state of the `SQZ` of the same length and emits the source XOR its bytes; on all-zero bytes the two
commands are the same. -/
def Obligations.XorksIsSqzXored : Prop :=
  ∀ (s : State) (dcap : Nat) (src : List Byte), s.FLT = false → s.sponge.A ≤ 128 → src.length ≤ dcap →
    ∃ t u ks, exec (.xorks dcap src) s = .next t ∧ exec (.sqz src.length) s = .next u ∧
      u.response = some ⟨.ok, ks⟩ ∧ t.response = some ⟨.ok, List.zipWith (fun b z => b ^^^ z) src ks⟩ ∧
      t.sponge = u.sponge ∧ t.FLT = u.FLT ∧ ((∀ b ∈ src, b = 0) → t = u)

/-- R107 (b): decryption is the same command: from the same state, `XORKS` on the output gives the message back. -/
def Obligations.XorksDecryptsItself : Prop :=
  ∀ (s : State) (d d' : Nat) (m : List Byte), s.FLT = false → s.sponge.A ≤ 128 → m.length ≤ d → m.length ≤ d' →
    ∃ t c u, exec (.xorks d m) s = .next t ∧ t.response = some ⟨.ok, c⟩ ∧
      exec (.xorks d' c) s = .next u ∧ u.response = some ⟨.ok, m⟩ ∧ u.sponge = t.sponge

/-- R107 (c): the state after `XORKS` does not depend on the values of the source bytes, only on how many there are. -/
def Obligations.KeystreamIgnoresThePayload : Prop :=
  ∀ (s : State) (d d' : Nat) (m m' : List Byte), s.FLT = false → s.sponge.A ≤ 128 → m.length ≤ d →
    m'.length ≤ d' → m.length = m'.length →
    ∃ t t', exec (.xorks d m) s = .next t ∧ exec (.xorks d' m') s = .next t' ∧ t.sponge = t'.sponge ∧ t.FLT = t'.FLT

/-- R58 (c): an XOR stream splits anywhere. -/
def Obligations.XorksSplitsAnywhere : Prop :=
  ∀ (s : State) (d d' : Nat) (x y : List Byte), s.FLT = false → s.sponge.A ≤ 128 → x.length ≤ d → y.length ≤ d' →
    ∃ t u v o p, exec (.xorks d x) s = .next t ∧ t.response = some ⟨.ok, o⟩ ∧
      exec (.xorks d' y) t = .next u ∧ u.response = some ⟨.ok, p⟩ ∧
      exec (.xorks (d + d') (x ++ y)) s = .next v ∧ v.response = some ⟨.ok, o ++ p⟩ ∧
      v.sponge = u.sponge ∧ v.FLT = u.FLT

/-! ## Host sequences (47_host_sequences.md, 30_encoding.md R57, R58) -/

/-- R111: `enc(r)` is big-endian and minimal. -/
def Obligations.EncSizeIsMinimalBigEndian : Prop :=
  (∀ r : Nat, (encSize r).foldl (fun acc b => 256 * acc + b.toNat) 0 = r ∧ (encSize r).head? ≠ some 0) ∧
  encSize 0 = [] ∧ encSize 1 = [0x01] ∧ encSize 32 = [0x20] ∧ encSize 255 = [0xFF] ∧
  encSize 256 = [0x01, 0x00] ∧ encSize 65536 = [0x01, 0x00, 0x00]

/-- R57, R115: `ABSORB`, a list of encodable `ABS` commands, ends in the state of the one unbounded `ABS`. -/
def Obligations.AbsorbSequenceIsOneAbs : Prop :=
  ∀ (s t : State) (data : List Byte), exec (.abs data) s = .next t →
    (∀ i ∈ absorbSeq data, i.wellFormed = true) ∧
    ∃ rs, issue (absorbSeq data) s = .next (t, rs) ∧ outputs rs = []

/-- R57, R115: `SQUEEZE`, a list of encodable `SQZ` commands, gives the bytes and the sponge of the one unbounded `SQZ`. -/
def Obligations.SqueezeSequenceIsOneSqz : Prop :=
  ∀ (s : State) (n : Nat), s.FLT = false → s.sponge.A ≤ 128 →
    (∀ i ∈ squeezeSeq n, i.wellFormed = true) ∧
    ∃ t o u rs, exec (.sqz n) s = .next t ∧ t.response = some ⟨.ok, o⟩ ∧
      issue (squeezeSeq n) s = .next (u, rs) ∧ outputs rs = o ∧ u.sponge = t.sponge ∧ u.FLT = t.FLT

/-- R57, R116: `XORSTREAM` issues nothing when the destination is shorter; otherwise a list of encodable `XORKS` commands gives
the bytes and the sponge of the one unbounded `XORKS`, and none of them faults. -/
def Obligations.XorStreamSequenceIsOneXorks : Prop :=
  ∀ (s : State) (dcap : Nat) (src : List Byte), s.FLT = false → s.sponge.A ≤ 128 →
    (dcap < src.length → xorStreamSeq dcap src = none) ∧
    (src.length ≤ dcap → ∃ is t o u rs, xorStreamSeq dcap src = some is ∧
      (∀ i ∈ is, i.wellFormed = true) ∧
      exec (.xorks dcap src) s = .next t ∧ t.response = some ⟨.ok, o⟩ ∧
      issue is s = .next (u, rs) ∧ outputs rs = o ∧ (∀ r ∈ rs, r.status = .ok) ∧ u.sponge = t.sponge ∧ u.FLT = t.FLT)

/-- R110: the hash sequence runs on any good core and its digest has exactly the requested number of bytes. -/
def Obligations.HashSequenceGivesTheDigestSize : Prop :=
  ∀ (s : State) (data : List Byte) (r : Nat), s.FLT = false → s.sponge.A ≤ 128 →
    ∃ u rs, issue (hashSeq data r) s = .next (u, rs) ∧ (outputs rs).length = r ∧ (∀ a ∈ rs, a.status = .ok) ∧
      u.FLT = false ∧ u.sponge.A = 0

/-! ## Faults (60_exceptions.md) -/

/-- R122, R125: a transaction that decodes to ILLEGAL, with `FLT = 0`, enters the fault state: `E_ILLEGAL`, no byte, the sponge
exactly as before. -/
def Obligations.IllegalTransactionEntersFault : Prop :=
  ∀ (s : State) (t : Transaction) (rest : List Input) (e : Illegal), s.FLT = false →
    s.input = .transaction t :: rest → decode t = .error e →
    step s = .next { s with FLT := true, response := some ⟨.eIllegal, []⟩, input := rest }

/-- R123: while `FLT = 1` every transaction that does not decode to `RST`, legal or not, is refused and no state changes. -/
def Obligations.FaultedCoreRefuses : Prop :=
  ∀ (s : State) (t : Transaction) (rest : List Input), s.FLT = true →
    s.input = .transaction t :: rest → decode t ≠ .ok .rst →
    step s = .next { s with response := some ⟨.eFaulted, []⟩, input := rest }

/-- R124: the four cases of one transaction, in their order, each with its next state; the last runs the command, which answers
`OK` (for the counters the spec allows, log 7). -/
def Obligations.ChecksComeInOrder : Prop :=
  ∀ (s : State) (t : Transaction) (rest : List Input), s.input = .transaction t :: rest → s.sponge.A ≤ 128 →
    (s.FLT = true ∧ decode t ≠ .ok .rst →
      step s = .next { s with response := some ⟨.eFaulted, []⟩, input := rest }) ∧
    (s.FLT = false → ∀ e, decode t = .error e →
      step s = .next { s with FLT := true, response := some ⟨.eIllegal, []⟩, input := rest }) ∧
    (s.FLT = false → ∀ dcap src, decode t = .ok (.xorks dcap src) → dcap < src.length →
      step s = .next { s with FLT := true, response := some ⟨.eLen, []⟩, input := rest }) ∧
    (∀ i, decode t = .ok i → (s.FLT = false ∨ i = .rst) → (∀ dcap src, i = .xorks dcap src → src.length ≤ dcap) →
      ∃ u out, step s = .next u ∧ exec i { s with input := rest } = .next u ∧ u.response = some ⟨.ok, out⟩ ∧
        u.FLT = false)

/-- R121, R122 (and R123): which status a transaction gets is exactly which check it meets; so `E_LEN` comes from an `XORKS`
with `dcap < len` that is not refused and from nothing else, `E_ILLEGAL` from an ILLEGAL transaction that is not refused. -/
def Obligations.StatusTellsWhichCheckFired : Prop :=
  ∀ (s : State) (t : Transaction) (rest : List Input), s.input = .transaction t :: rest → s.sponge.A ≤ 128 →
    ∃ u r, step s = .next u ∧ u.response = some r ∧
      (r.status = .eFaulted ↔ (s.FLT = true ∧ decode t ≠ .ok .rst)) ∧
      (r.status = .eIllegal ↔ (s.FLT = false ∧ ∃ e, decode t = .error e)) ∧
      (r.status = .eLen ↔ (s.FLT = false ∧ ∃ dcap src, decode t = .ok (.xorks dcap src) ∧ dcap < src.length)) ∧
      (r.status = .ok ↔ ∃ i, decode t = .ok i ∧ (s.FLT = false ∨ i = .rst) ∧
        ∀ dcap src, i = .xorks dcap src → src.length ≤ dcap) ∧
      (r.status ≠ .ok → u.sponge = s.sponge ∧ r.out = [])

/-- R127: the only ways out of `FLT = 1` are a legal `RST` and hardware reset, and both discard the whole sponge state. -/
def Obligations.OnlyResetLeavesTheFaultState : Prop :=
  ∀ s u : State, s.FLT = true → step s = .next u → u.FLT = false →
    u.sponge = State.reset.sponge ∧ ∃ e rest, s.input = e :: rest ∧
      (e = .hardwareReset ∨ (∃ t, e = .resetDuring t) ∨ (∃ t, e = .transaction t ∧ decode t = .ok .rst))

/-- R17: `FLT` is set only by fault entry (`E_LEN` or `E_ILLEGAL`), which leaves the sponge as it was; a step that neither enters
a fault nor resets leaves `FLT` alone. -/
def Obligations.OnlyFaultEntrySetsFLT : Prop :=
  ∀ s u : State, step s = .next u → s.FLT = false → u.FLT = true →
    u.sponge = s.sponge ∧ (u.response = some ⟨.eLen, []⟩ ∨ u.response = some ⟨.eIllegal, []⟩)

/-- R135: with `FLT = 0`, every command but an `XORKS` with a short destination completes with status `OK`, whatever its
operands. -/
def Obligations.EveryOtherCommandIsTotal : Prop :=
  ∀ (i : Instr) (s : State), s.FLT = false → s.sponge.A ≤ 128 →
    (∀ dcap src, i = .xorks dcap src → src.length ≤ dcap) →
    ∃ t out, exec i s = .next t ∧ t.response = some ⟨.ok, out⟩ ∧ t.FLT = false

/-- R18: after each transaction the status register tells the status: `STATUS = 0` exactly with `OK`; a transaction is answered
exactly once and taken from the front of the inputs (R20, R45), and one not answered `OK` leaves the sponge as it was. -/
def Obligations.StatusRegisterTellsTheResponse : Prop :=
  ∀ (s u : State) (t : Transaction) (rest : List Input), s.input = .transaction t :: rest → step s = .next u →
    u.input = rest ∧ ∃ r, u.response = some r ∧ (u.STATUS = 0 ↔ r.status = .ok) ∧
      (r.status ≠ .ok → u.sponge = s.sponge ∧ r.out = [])

/-- R132: a step of one core changes no other core. -/
def Obligations.CoresShareNothing : Prop :=
  ∀ (k j : Nat) (cores after : List State), stepCore k cores = .next after →
    after.length = cores.length ∧ (j ≠ k → after[j]? = cores[j]?) ∧
    (∀ s, cores[k]? = some s → ∃ t, step s = .next t ∧ after[k]? = some t)

/-! ## Reset and the whole machine (70_reset_and_hazards.md, 10_state.md, 00_scope.md) -/

/-- R140: hardware reset, between commands or during one, gives the sponge and the `FLT` that `RST` gives; the abandoned command
returns no response. -/
def Obligations.HardwareResetActsAsRst : Prop :=
  ∀ (s : State) (e : Input) (rest : List Input), s.input = e :: rest →
    (e = .hardwareReset ∨ ∃ t, e = .resetDuring t) →
    ∃ u v, step s = .next u ∧ exec .rst s = .next v ∧ u.sponge = v.sponge ∧ u.FLT = v.FLT ∧ u.response = none ∧
      u.input = rest

/-- A step on a transaction that decodes runs the decoded command, on the state with that input taken. -/
def Obligations.StepRunsTheDecodedCommand : Prop :=
  ∀ (s : State) (t : Transaction) (rest : List Input) (i : Instr), s.input = .transaction t :: rest →
    decode t = .ok i → step s = exec i { s with input := rest }

/-- The host's placing of a table word makes the next step run exactly it (the model's convention, log 11). -/
def Obligations.PlacedWordRunsNext : Prop :=
  ∀ (s : State) (nbits w : Nat) (i : Instr), decodeTableWord nbits w = some i →
    step (s.withFetchWord nbits w) = exec i s

/-- With nothing delivered the core is idle and keeps all its state (the model's convention, log 5, after R131). -/
def Obligations.IdleCoreKeepsItsState : Prop :=
  ∀ s : State, s.input = [] → step s = .next s

/-- R6: what a command does to the sponge and to `FLT`, and its response, depend on the sponge and `FLT` before it alone. -/
def Obligations.CommandsReadOnlySpongeAndFLT : Prop :=
  ∀ (i : Instr) (s s' t : State), s.sponge = s'.sponge → s.FLT = s'.FLT → exec i s = .next t →
    ∃ t', exec i s' = .next t' ∧ t'.sponge = t.sponge ∧ t'.FLT = t.FLT ∧ t'.response = t.response

/-- U9 as the model takes it (log 7): with `A` in 129..255 and `FLT = 0` the commands that read `A` are stuck; `RST`, `ABS` of
nothing and a short `XORKS` do not read it and run. -/
def Obligations.CounterOutOfRangeIsStuck : Prop :=
  ∀ s : State, s.FLT = false → 128 < s.sponge.A →
    (∀ data, data ≠ [] → exec (.abs data) s = .fault .absorbCounterOutOfRange) ∧
    exec .abstop s = .fault .absorbCounterOutOfRange ∧
    exec .drip s = .fault .absorbCounterOutOfRange ∧
    (∀ n, exec (.sqz n) s = .fault .absorbCounterOutOfRange) ∧
    (∀ dcap src, src.length ≤ dcap → exec (.xorks dcap src) s = .fault .absorbCounterOutOfRange) ∧
    (∃ t, exec .rst s = .next t) ∧ (∃ t, exec (.abs []) s = .next t) ∧
    (∀ dcap src, dcap < src.length → ∃ t, exec (.xorks dcap src) s = .next t)

/-- The reset state is good. -/
def Obligations.ResetStateIsGood : Prop := State.reset.Inv

/-- R11, R13, R15, R18 together: every step from a good state gives a good state: `S` a permutation in canonical form, `W`
odd, `A` at most 128, the response telling `FLT`. -/
def Obligations.StepKeepsTheInvariant : Prop :=
  ∀ s t : State, s.Inv → step s = .next t → t.Inv

/-- From a good state the machine never stops: whatever has been delivered, there is a next state. -/
def Obligations.GoodStateNeverStops : Prop :=
  ∀ s : State, s.Inv → ∃ t, step s = .next t

/-- R11: every step from a state whose array is a permutation gives one whose array is a permutation, whatever the other fields
hold. -/
def Obligations.StepKeepsThePermutation : Prop :=
  ∀ s t : State, s.sponge.S.IsPermutation → step s = .next t → t.sponge.S.IsPermutation
end

