-- ==== Sys2Proof/Laws/Memory.lean ====
section
/-! SUPPORT. What reading, writing and swapping cells do (20_memory.md R32, R33), that each keeps the canonical form, and
that a swap keeps the permutation (R11). -/

namespace Sys2Proof.Machine

/-! ## Entries -/

theorem Memory.lookup_erase_self (m : Memory) (x : Nat) : (m.erase x).lookup x = Memory.initial x := by
  induction m with
  | nil => rfl
  | cons c m ih =>
    obtain ⟨y, v⟩ := c
    by_cases h : y = x <;> simp_all [Memory.erase, Memory.lookup]

theorem Memory.lookup_erase_other (m : Memory) {x y : Nat} (h : x ≠ y) : (m.erase x).lookup y = m.lookup y := by
  induction m with
  | nil => rfl
  | cons c m ih =>
    obtain ⟨z, v⟩ := c
    by_cases hx : z = x
    · subst hx; simp_all [Memory.erase, Memory.lookup]
    · by_cases hy : z = y <;> simp_all [Memory.erase, Memory.lookup]

theorem Memory.mem_erase {m : Memory} {x : Nat} {c : Host.Cell} : c ∈ m.erase x ↔ c ∈ m ∧ c.1 ≠ x := by
  simp [Memory.erase]

theorem Memory.lookup_insert_self (m : Memory) (x : Nat) (v : Byte) (hm : ∀ c ∈ m, c.1 ≠ x) :
    (m.insert x v).lookup x = v := by
  induction m with
  | nil => simp [Memory.insert, Memory.lookup]
  | cons c m ih =>
    obtain ⟨y, w⟩ := c
    have hy : y ≠ x := hm (y, w) (by simp)
    have ih' := ih fun c hc => hm c (by simp [hc])
    by_cases h : x < y <;> simp [Memory.insert, Memory.lookup, h, hy, ih']

theorem Memory.lookup_insert_other (m : Memory) {x y : Nat} (v : Byte) (h : x ≠ y) :
    (m.insert x v).lookup y = m.lookup y := by
  induction m with
  | nil => simp [Memory.insert, Memory.lookup, h]
  | cons c m ih =>
    obtain ⟨z, w⟩ := c
    by_cases hz : x < z <;> simp [Memory.insert, Memory.lookup, hz, h, ih]

theorem Memory.mem_insert {m : Memory} {x : Nat} {v : Byte} {c : Host.Cell} :
    c ∈ m.insert x v ↔ c = (x, v) ∨ c ∈ m := by
  induction m with
  | nil => simp [Memory.insert]
  | cons d m ih =>
    obtain ⟨y, w⟩ := d
    by_cases h : x < y
    · simp [Memory.insert, h]
    · simp [Memory.insert, h, ih]; tauto

theorem Memory.pairwise_insert {m : Memory} {x : Nat} (v : Byte) (hm : m.Pairwise (fun c d => c.1 < d.1))
    (hx : ∀ c ∈ m, c.1 ≠ x) : (m.insert x v).Pairwise (fun c d => c.1 < d.1) := by
  induction m with
  | nil => simp [Memory.insert]
  | cons d m ih =>
    obtain ⟨y, w⟩ := d
    rw [List.pairwise_cons] at hm
    have hxy : y ≠ x := hx (y, w) (by simp)
    have ih' := ih hm.2 fun c hc => hx c (by simp [hc])
    by_cases h : x < y
    · simp only [Memory.insert, h, if_true, List.pairwise_cons]
      refine ⟨fun c hc => ?_, hm⟩
      rcases List.mem_cons.mp hc with rfl | hc
      · exact h
      · exact h.trans (hm.1 c hc)
    · simp only [Memory.insert, h, if_false, List.pairwise_cons]
      refine ⟨fun c hc => ?_, ih'⟩
      rcases Memory.mem_insert.mp hc with rfl | hc
      · change y < x; omega
      · exact hm.1 c hc

/-! ## Bytes -/

/-- A read after a write to the same cell gives the byte written. -/
@[simp] theorem Memory.read_write_self (m : Memory) (x v : Byte) : (m.write x v).read x = v := by
  unfold Memory.write Memory.read
  split
  · next h => rw [Memory.lookup_erase_self, h]
  · exact Memory.lookup_insert_self _ _ _ fun c hc => (Memory.mem_erase.mp hc).2

/-- A write leaves every other cell alone. -/
theorem Memory.read_write_other (m : Memory) {x y : Byte} (v : Byte) (h : y ≠ x) :
    (m.write x v).read y = m.read y := by
  have hn : x.toNat ≠ y.toNat := fun e => h (BitVec.eq_of_toNat_eq e.symm)
  unfold Memory.write Memory.read
  split
  · exact Memory.lookup_erase_other _ hn
  · rw [Memory.lookup_insert_other _ _ hn, Memory.lookup_erase_other _ hn]

theorem Memory.read_write (m : Memory) (x y v : Byte) :
    (m.write x v).read y = if y = x then v else m.read y := by
  split
  · next h => subst h; exact m.read_write_self y v
  · next h => exact m.read_write_other v h

/-- R33: everything a swap does. -/
theorem Memory.read_swap (m : Memory) (x y z : Byte) :
    (m.swap x y).read z = if z = y then m.read x else if z = x then m.read y else m.read z := by
  simp [Memory.swap, Memory.read_write]

/-- A swap renames the cells: reading cell `z` after it is reading before it the cell that the exchange of `x` and `y`
gives for `z`. -/
theorem Memory.read_swap_eq_comp (m : Memory) (x y : Byte) :
    (m.swap x y).read = m.read ∘ Equiv.swap x y := by
  funext z
  rw [Memory.read_swap, Function.comp_apply, Equiv.swap_apply_def]
  by_cases hx : z = x <;> by_cases hy : z = y <;> simp_all

@[simp] theorem Memory.read_nil (x : Byte) : Memory.read [] x = x := by
  simp [Memory.read, Memory.lookup, Memory.initial]

/-! ## The canonical form -/

theorem Memory.wf_nil : Memory.wf [] := by simp [Memory.wf]

theorem Memory.wf_write {m : Memory} (hm : m.wf) (x v : Byte) : (m.write x v).wf := by
  have he : (m.erase x.toNat).wf :=
    ⟨hm.1.sublist List.filter_sublist, fun c hc => hm.2 c (Memory.mem_erase.mp hc).1⟩
  unfold Memory.write
  split
  · exact he
  · next hv =>
    refine ⟨Memory.pairwise_insert v he.1 fun c hc => (Memory.mem_erase.mp hc).2, fun c hc => ?_⟩
    rcases Memory.mem_insert.mp hc with rfl | hc
    · exact ⟨x.isLt, hv⟩
    · exact he.2 c hc

theorem Memory.wf_swap {m : Memory} (hm : m.wf) (x y : Byte) : (m.swap x y).wf :=
  Memory.wf_write (Memory.wf_write hm _ _) _ _

theorem Memory.lookup_eq_of_mem {m : Memory} (hm : m.Pairwise (fun c d => c.1 < d.1)) {c : Host.Cell}
    (hc : c ∈ m) : m.lookup c.1 = c.2 := by
  induction m with
  | nil => simp at hc
  | cons d m ih =>
    rw [List.pairwise_cons] at hm
    rcases List.mem_cons.mp hc with rfl | hcm
    · simp [Memory.lookup]
    · have : d.1 < c.1 := hm.1 c hcm
      have hne : ¬ d.1 = c.1 := by omega
      obtain ⟨y, v⟩ := d
      simp only [Memory.lookup]
      rw [if_neg hne]
      exact ih hm.2 hcm

theorem Memory.lookup_eq_initial {m : Memory} {x : Nat} (h : ∀ c ∈ m, c.1 ≠ x) :
    m.lookup x = Memory.initial x := by
  induction m with
  | nil => rfl
  | cons d m ih =>
    obtain ⟨y, v⟩ := d
    have hne : ¬ y = x := h (y, v) (by simp)
    simp only [Memory.lookup]
    rw [if_neg hne]
    exact ih fun c hc => h c (by simp [hc])

/-- Equal contents are equal data: two arrays in canonical form with the same 256 bytes are the same list. -/
theorem Memory.ext_of_read {m n : Memory} (hm : m.wf) (hn : n.wf) (h : ∀ x, m.read x = n.read x) : m = n := by
  have key : ∀ {m n : Memory}, m.wf → n.wf → (∀ x, m.read x = n.read x) → ∀ c ∈ m, c ∈ n := by
    intro m n hm hn h c hc
    have hlt : c.1 < 256 := (hm.2 c hc).1
    have hx : (BitVec.ofNat 8 c.1).toNat = c.1 := by
      rw [BitVec.toNat_ofNat]; exact Nat.mod_eq_of_lt hlt
    have hr := h (BitVec.ofNat 8 c.1)
    simp only [Memory.read, hx] at hr
    rw [Memory.lookup_eq_of_mem hm.1 hc] at hr
    by_contra hcn
    have habs : ∀ d ∈ n, d.1 ≠ c.1 := by
      intro d hd he
      have hd2 := Memory.lookup_eq_of_mem hn.1 hd
      rw [he, ← hr] at hd2
      exact hcn (by rw [show c = d from Prod.ext he.symm hd2]; exact hd)
    rw [Memory.lookup_eq_initial habs] at hr
    exact (hm.2 c hc).2 hr
  have irrefl : ∀ a b : Host.Cell, a.1 < b.1 → b.1 < a.1 → a = b := fun a b hab hba => by omega
  have nd : ∀ {m : Memory}, m.wf → m.Nodup := fun hm =>
    hm.1.imp fun {a b} hab he => by subst he; exact absurd hab (lt_irrefl _)
  have hp : m.Perm n := (List.perm_ext_iff_of_nodup (nd hm) (nd hn)).mpr fun c =>
    ⟨key hm hn h c, key hn hm (fun x => (h x).symm) c⟩
  exact hp.eq_of_pairwise (fun a b _ _ hab hba => irrefl a b hab hba) hm.1 hn.1

/-! ## The permutation -/

theorem Memory.isPermutation_nil : Memory.IsPermutation [] := by
  have : Memory.read [] = id := by funext x; simp
  unfold Memory.IsPermutation
  rw [this]
  exact Function.bijective_id

theorem Memory.isPermutation_swap {m : Memory} (hm : m.IsPermutation) (x y : Byte) :
    (m.swap x y).IsPermutation := by
  unfold Memory.IsPermutation
  rw [Memory.read_swap_eq_comp]
  exact hm.comp (Equiv.swap x y).bijective

end Sys2Proof.Machine
end

