-- ==== Sys2Proof/Laws/State.lean ====
section
/-! SUPPORT. One lemma per field per update of the machine's state, so that no later proof unfolds a record update.
Each is proved on the constructor, so that simp uses it as a rewrite and not as a definitional equality: an
equality of records that hold a Whip must not be left to the kernel to find by running its 512 Updates. -/

namespace Sys2Proof.Machine

variable (s : State) (q : Sponge) (out : List Byte) (e : Status)

variable (m : Memory) (v : Byte)

@[simp] theorem Sponge.setS_S : (q.setS m).S = m := by cases q; rfl
@[simp] theorem Sponge.setS_I : (q.setS m).I = q.I := by cases q; rfl
@[simp] theorem Sponge.setS_J : (q.setS m).J = q.J := by cases q; rfl
@[simp] theorem Sponge.setS_K : (q.setS m).K = q.K := by cases q; rfl
@[simp] theorem Sponge.setS_W : (q.setS m).W = q.W := by cases q; rfl
@[simp] theorem Sponge.setS_Z : (q.setS m).Z = q.Z := by cases q; rfl
@[simp] theorem Sponge.setS_A : (q.setS m).A = q.A := by cases q; rfl

@[simp] theorem Sponge.setW_S : (q.setW v).S = q.S := by cases q; rfl
@[simp] theorem Sponge.setW_I : (q.setW v).I = q.I := by cases q; rfl
@[simp] theorem Sponge.setW_J : (q.setW v).J = q.J := by cases q; rfl
@[simp] theorem Sponge.setW_K : (q.setW v).K = q.K := by cases q; rfl
@[simp] theorem Sponge.setW_W : (q.setW v).W = v := by cases q; rfl
@[simp] theorem Sponge.setW_Z : (q.setW v).Z = q.Z := by cases q; rfl
@[simp] theorem Sponge.setW_A : (q.setW v).A = q.A := by cases q; rfl

@[simp] theorem Sponge.setZ_S : (q.setZ v).S = q.S := by cases q; rfl
@[simp] theorem Sponge.setZ_I : (q.setZ v).I = q.I := by cases q; rfl
@[simp] theorem Sponge.setZ_J : (q.setZ v).J = q.J := by cases q; rfl
@[simp] theorem Sponge.setZ_K : (q.setZ v).K = q.K := by cases q; rfl
@[simp] theorem Sponge.setZ_W : (q.setZ v).W = q.W := by cases q; rfl
@[simp] theorem Sponge.setZ_Z : (q.setZ v).Z = v := by cases q; rfl
@[simp] theorem Sponge.setZ_A : (q.setZ v).A = q.A := by cases q; rfl

@[simp] theorem Sponge.setA_S : (q.setA v).S = q.S := by cases q; rfl
@[simp] theorem Sponge.setA_I : (q.setA v).I = q.I := by cases q; rfl
@[simp] theorem Sponge.setA_J : (q.setA v).J = q.J := by cases q; rfl
@[simp] theorem Sponge.setA_K : (q.setA v).K = q.K := by cases q; rfl
@[simp] theorem Sponge.setA_W : (q.setA v).W = q.W := by cases q; rfl
@[simp] theorem Sponge.setA_Z : (q.setA v).Z = q.Z := by cases q; rfl
@[simp] theorem Sponge.setA_A : (q.setA v).A = v := by cases q; rfl

@[simp] theorem State.complete_sponge : (s.complete q out).sponge = q := by cases s; rfl
@[simp] theorem State.complete_FLT : (s.complete q out).FLT = s.FLT := by cases s; rfl
@[simp] theorem State.complete_response : (s.complete q out).response = some ⟨.ok, out⟩ := by cases s; rfl
@[simp] theorem State.complete_input : (s.complete q out).input = s.input := by cases s; rfl

@[simp] theorem State.faultEntry_sponge : (s.faultEntry e).sponge = s.sponge := by cases s; rfl
@[simp] theorem State.faultEntry_FLT : (s.faultEntry e).FLT = true := by cases s; rfl
@[simp] theorem State.faultEntry_response : (s.faultEntry e).response = some ⟨e, []⟩ := by cases s; rfl
@[simp] theorem State.faultEntry_input : (s.faultEntry e).input = s.input := by cases s; rfl

@[simp] theorem State.refuse_sponge : s.refuse.sponge = s.sponge := by cases s; rfl
@[simp] theorem State.refuse_FLT : s.refuse.FLT = s.FLT := by cases s; rfl
@[simp] theorem State.refuse_response : s.refuse.response = some ⟨.eFaulted, []⟩ := by cases s; rfl
@[simp] theorem State.refuse_input : s.refuse.input = s.input := by cases s; rfl
@[simp] theorem State.refuse_refuse : s.refuse.refuse = s.refuse := by cases s; rfl

@[simp] theorem State.clear_sponge : s.clear.sponge = Sponge.reset := by cases s; rfl
@[simp] theorem State.clear_FLT : s.clear.FLT = false := by cases s; rfl
@[simp] theorem State.clear_response : s.clear.response = s.response := by cases s; rfl
@[simp] theorem State.clear_input : s.clear.input = s.input := by cases s; rfl

@[simp] theorem State.hardReset_sponge : s.hardReset.sponge = Sponge.reset := by cases s; rfl
@[simp] theorem State.hardReset_FLT : s.hardReset.FLT = false := by cases s; rfl
@[simp] theorem State.hardReset_response : s.hardReset.response = none := by cases s; rfl
@[simp] theorem State.hardReset_input : s.hardReset.input = s.input := by cases s; rfl

@[simp] theorem State.idle_eq : s.idle = s := by cases s; rfl

/-- Completing twice keeps only the second completion. -/
@[simp] theorem State.complete_complete (q' : Sponge) (out' : List Byte) :
    (s.complete q out).complete q' out' = s.complete q' out' := by cases s; rfl

/-- R52: the only status after which `FLT = 0` is `OK`. -/
@[simp] theorem Status.fltAfter_eq_false : e.fltAfter = false ↔ e = .ok := by cases e <;> simp [Status.fltAfter]

end Sys2Proof.Machine
end

