-- ==== Sys2Proof/Laws/Mixing.lean ====
section
/-! SUPPORT. What Update, Whip, Crush and Shuffle leave alone, what they do to the registers they write, and that each
changes `S` by swaps only (R11, R33), so that every property a swap keeps is kept. -/

namespace Sys2Proof.Machine

/-- A property of the array that every swap keeps (R33: "All mutations are pairwise swaps"). -/
def KeptBySwap (P : Memory → Prop) : Prop := ∀ m x y, P m → P (m.swap x y)

theorem keptBySwap_wf : KeptBySwap Memory.wf := fun _ x y h => Memory.wf_swap h x y

theorem keptBySwap_isPermutation : KeptBySwap Memory.IsPermutation := fun _ x y h =>
  Memory.isPermutation_swap h x y

variable (q : Sponge)

/-! ## Update -/

theorem update_I : (update q).I = q.I + q.W := by cases q; rfl
theorem update_J : (update q).J = q.K + q.S.read (q.J + q.S.read (q.I + q.W)) := by cases q; rfl
theorem update_K : (update q).K = (q.I + q.W) + q.K + q.S.read (update q).J := by cases q; rfl
theorem update_S : (update q).S = q.S.swap (update q).I (update q).J := by cases q; rfl
@[simp] theorem update_W : (update q).W = q.W := by cases q; rfl
@[simp] theorem update_Z : (update q).Z = q.Z := by cases q; rfl
@[simp] theorem update_A : (update q).A = q.A := by cases q; rfl

theorem update_keeps {P : Memory → Prop} (hP : KeptBySwap P) (h : P q.S) : P (update q).S := hP _ _ _ h

/-- Any number of Updates: they leave `W`, `Z`, `A` alone and move `I` by the stride each time. -/
theorem iterate_update (n : Nat) :
    (update^[n] q).W = q.W ∧ (update^[n] q).Z = q.Z ∧ (update^[n] q).A = q.A ∧
      (update^[n] q).I = q.I + BitVec.ofNat 8 n * q.W := by
  induction n generalizing q with
  | zero => simp
  | succ n ih =>
    rw [Function.iterate_succ_apply]
    obtain ⟨hW, hZ, hA, hI⟩ := ih (update q)
    refine ⟨hW, hZ, hA, ?_⟩
    rw [hI, update_W, update_I, BitVec.add_assoc, BitVec.ofNat_add, BitVec.add_mul, BitVec.add_comm q.W]
    simp

theorem iterate_update_keeps {P : Memory → Prop} (hP : KeptBySwap P) (n : Nat) (h : P q.S) :
    P (update^[n] q).S := by
  induction n generalizing q with
  | zero => exact h
  | succ n ih => exact ih (update q) (update_keeps q hP h)

/-! ## Whip -/

@[simp] theorem whip_W : (whip q).W = q.W + 2 := by
  rw [whip, Sponge.setW_W, (iterate_update q _).1, Config.strideStep]

@[simp] theorem whip_Z : (whip q).Z = q.Z := by
  rw [whip, Sponge.setW_Z, (iterate_update q _).2.1]

@[simp] theorem whip_A : (whip q).A = q.A := by
  rw [whip, Sponge.setW_A, (iterate_update q _).2.2.1]

theorem whip_I_eq : (whip q).I = q.I + BitVec.ofNat 8 Config.whipSteps * q.W := by
  rw [whip, Sponge.setW_I, (iterate_update q _).2.2.2]

theorem whip_keeps {P : Memory → Prop} (hP : KeptBySwap P) (h : P q.S) : P (whip q).S := by
  rw [whip, Sponge.setW_S]
  exact iterate_update_keeps q hP _ h

/-! ## Crush -/

@[simp] theorem crush_S : (crush q).S = crushPairs q.S := by rw [crush, Sponge.setS_S]
@[simp] theorem crush_I : (crush q).I = q.I := by rw [crush, Sponge.setS_I]
@[simp] theorem crush_J : (crush q).J = q.J := by rw [crush, Sponge.setS_J]
@[simp] theorem crush_K : (crush q).K = q.K := by rw [crush, Sponge.setS_K]
@[simp] theorem crush_W : (crush q).W = q.W := by rw [crush, Sponge.setS_W]
@[simp] theorem crush_Z : (crush q).Z = q.Z := by rw [crush, Sponge.setS_Z]
@[simp] theorem crush_A : (crush q).A = q.A := by rw [crush, Sponge.setS_A]

theorem crushPair_keeps {P : Memory → Prop} (hP : KeptBySwap P) (m : Memory) (v : Nat) (h : P m) :
    P (crushPair m v) := by
  unfold crushPair
  split
  · exact hP _ _ _ h
  · exact h

theorem foldl_crushPair_keeps {P : Memory → Prop} (hP : KeptBySwap P) (vs : List Nat) (m : Memory) (h : P m) :
    P (vs.foldl crushPair m) := by
  induction vs generalizing m with
  | nil => exact h
  | cons v vs ih => exact ih _ (crushPair_keeps hP m v h)

theorem crush_keeps {P : Memory → Prop} (hP : KeptBySwap P) (h : P q.S) : P (crush q).S := by
  rw [crush_S, crushPairs]
  exact foldl_crushPair_keeps hP _ _ h

/-! ## Shuffle -/

@[simp] theorem shuffle_A : (shuffle q).A = 0 := by rw [shuffle, Sponge.setA_A]

@[simp] theorem shuffle_Z : (shuffle q).Z = q.Z := by
  rw [shuffle, Sponge.setA_Z, whip_Z, crush_Z, whip_Z, crush_Z, whip_Z]

theorem shuffle_W : (shuffle q).W = q.W + 6 := by
  rw [shuffle, Sponge.setA_W, whip_W, crush_W, whip_W, crush_W, whip_W, BitVec.add_assoc, BitVec.add_assoc]
  rfl

theorem shuffle_keeps {P : Memory → Prop} (hP : KeptBySwap P) (h : P q.S) : P (shuffle q).S := by
  rw [shuffle, Sponge.setA_S]
  exact whip_keeps _ hP (crush_keeps _ hP (whip_keeps _ hP (crush_keeps _ hP (whip_keeps _ hP h))))

theorem shuffleIfFull_of_ne {q : Sponge} (h : q.A ≠ 128) : shuffleIfFull q = q := by
  unfold shuffleIfFull Config.H
  rw [if_neg h]

theorem shuffleIfFull_of_eq {q : Sponge} (h : q.A = 128) : shuffleIfFull q = shuffle q := by
  unfold shuffleIfFull Config.H
  rw [if_pos h]

theorem shuffleIfPending_of_zero {q : Sponge} (h : q.A = 0) : shuffleIfPending q = q := by
  simp [shuffleIfPending, h]

theorem shuffleIfPending_of_pos {q : Sponge} (h : q.A > 0) : shuffleIfPending q = shuffle q := by
  simp only [shuffleIfPending, h, if_true]

/-- After the output-side check nothing is pending. -/
@[simp] theorem shuffleIfPending_A : (shuffleIfPending q).A = 0 := by
  by_cases h : q.A > 0
  · rw [shuffleIfPending_of_pos h, shuffle_A]
  · have h0 : q.A = 0 := by
      apply BitVec.eq_of_toNat_eq
      simp only [gt_iff_lt, BitVec.lt_def] at h
      simpa using h
    rw [shuffleIfPending_of_zero h0, h0]

/-- The check is idempotent (R58). -/
@[simp] theorem shuffleIfPending_idem : shuffleIfPending (shuffleIfPending q) = shuffleIfPending q :=
  shuffleIfPending_of_zero (shuffleIfPending_A q)

@[simp] theorem shuffleIfPending_Z : (shuffleIfPending q).Z = q.Z := by
  unfold shuffleIfPending; split <;> simp

@[simp] theorem shuffleIfFull_Z : (shuffleIfFull q).Z = q.Z := by
  unfold shuffleIfFull; split <;> simp

/-- Before an absorb step's increment `A` is below 128 (R16). -/
theorem shuffleIfFull_A_lt {q : Sponge} (h : q.A ≤ 128) : (shuffleIfFull q).A.toNat < 128 := by
  by_cases h128 : q.A = 128
  · rw [shuffleIfFull_of_eq h128]; simp
  · rw [shuffleIfFull_of_ne h128]
    have : q.A.toNat ≠ 128 := fun e => h128 (BitVec.eq_of_toNat_eq e)
    rw [BitVec.le_def] at h
    have : (128 : Byte).toNat = 128 := rfl
    omega

/-! ## The invariant -/

/-- Adding an even stride step keeps `W` odd (R13). -/
theorem odd_add_even {w : Byte} (h : w.toNat % 2 = 1) (k : Nat) : (w + BitVec.ofNat 8 (2 * k)).toNat % 2 = 1 := by
  rw [BitVec.toNat_add, BitVec.toNat_ofNat]; omega

theorem shuffle_inv {q : Sponge} (h : q.Inv) : (shuffle q).Inv where
  canonical := shuffle_keeps q keptBySwap_wf h.canonical
  permutation := shuffle_keeps q keptBySwap_isPermutation h.permutation
  strideOdd := by rw [shuffle_W]; exact odd_add_even h.strideOdd 3
  counter := by rw [shuffle_A]; decide

theorem shuffleIfFull_inv {q : Sponge} (h : q.Inv) : (shuffleIfFull q).Inv := by
  unfold shuffleIfFull; split
  · exact shuffle_inv h
  · exact h

theorem shuffleIfPending_inv {q : Sponge} (h : q.Inv) : (shuffleIfPending q).Inv := by
  unfold shuffleIfPending; split
  · exact shuffle_inv h
  · exact h

theorem reset_inv : Sponge.reset.Inv where
  canonical := Memory.wf_nil
  permutation := Memory.isPermutation_nil
  strideOdd := rfl
  counter := by decide

end Sys2Proof.Machine
end

