-- ==== Sys2Proof/Laws/Commands.lean ====
section
/-! SUPPORT. What the absorb steps, the output steps and the checks before a command do, each said once. -/

namespace Sys2Proof.Machine

variable (q : Sponge)

/-! ## Absorb steps -/

@[simp] theorem absorbNibble_Z (v : Nibble) : (absorbNibble q v).Z = q.Z := by simp [absorbNibble]
@[simp] theorem absorbByte_Z (b : Byte) : (absorbByte q b).Z = q.Z := by simp [absorbByte]
@[simp] theorem absorbStop_Z : (absorbStop q).Z = q.Z := by simp [absorbStop]

@[simp] theorem absorb_Z (data : List Byte) : (absorb q data).Z = q.Z := by
  induction data generalizing q with
  | nil => rfl
  | cons b data ih => exact (ih (absorbByte q b)).trans (absorbByte_Z q b)

/-- Absorbing a concatenation is absorbing the parts in order. -/
theorem absorb_append (x y : List Byte) : absorb q (x ++ y) = absorb (absorb q x) y := List.foldl_append

/-- The increment of an absorb step never wraps (R16). -/
theorem absorb_counter {q : Sponge} (h : q.A ≤ 128) : (shuffleIfFull q).A + 1 ≤ (128 : Byte) := by
  have := shuffleIfFull_A_lt h
  rw [BitVec.le_def, BitVec.toNat_add]
  have h1 : (128 : Byte).toNat = 128 := rfl
  have h2 : (1 : Byte).toNat = 1 := rfl
  omega

theorem absorbNibble_inv {q : Sponge} (h : q.Inv) (v : Nibble) : (absorbNibble q v).Inv where
  canonical := Memory.wf_swap (shuffleIfFull_inv h).canonical _ _
  permutation := Memory.isPermutation_swap (shuffleIfFull_inv h).permutation _ _
  strideOdd := (shuffleIfFull_inv h).strideOdd
  counter := absorb_counter h.counter

theorem absorbNibble_A_le {q : Sponge} (h : q.A ≤ 128) (v : Nibble) : (absorbNibble q v).A ≤ 128 := absorb_counter h

theorem absorb_A_le {q : Sponge} (h : q.A ≤ 128) (data : List Byte) : (absorb q data).A ≤ 128 := by
  induction data generalizing q with
  | nil => exact h
  | cons b data ih => exact ih (absorbNibble_A_le (absorbNibble_A_le h _) _)

theorem absorb_inv {q : Sponge} (h : q.Inv) (data : List Byte) : (absorb q data).Inv := by
  induction data generalizing q with
  | nil => exact h
  | cons b data ih => exact ih (absorbNibble_inv (absorbNibble_inv h _) _)

theorem absorbStop_inv {q : Sponge} (h : q.Inv) : (absorbStop q).Inv where
  canonical := (shuffleIfFull_inv h).canonical
  permutation := (shuffleIfFull_inv h).permutation
  strideOdd := (shuffleIfFull_inv h).strideOdd
  counter := absorb_counter h.counter

/-! ## Output steps -/

@[simp] theorem output_S : (output q).S = q.S := by cases q; rfl
@[simp] theorem output_I : (output q).I = q.I := by cases q; rfl
@[simp] theorem output_J : (output q).J = q.J := by cases q; rfl
@[simp] theorem output_K : (output q).K = q.K := by cases q; rfl
@[simp] theorem output_W : (output q).W = q.W := by cases q; rfl
@[simp] theorem output_A : (output q).A = q.A := by cases q; rfl

@[simp] theorem dripStep_W : (dripStep q).W = q.W := by cases q; rfl
@[simp] theorem dripStep_A : (dripStep q).A = q.A := by cases q; rfl

theorem dripStep_inv {q : Sponge} (h : q.Inv) : (dripStep q).Inv where
  canonical := update_keeps q keptBySwap_wf h.canonical
  permutation := update_keeps q keptBySwap_isPermutation h.permutation
  strideOdd := h.strideOdd
  counter := h.counter

theorem dripSteps_inv (n : Nat) {q : Sponge} (h : q.Inv) : (dripSteps n q).1.Inv := by
  induction n generalizing q with
  | zero => exact h
  | succ n ih => exact ih (dripStep_inv h)

theorem xorSteps_inv (src : List Byte) {q : Sponge} (h : q.Inv) : (xorSteps src q).1.Inv := by
  induction src generalizing q with
  | nil => exact h
  | cons b src ih => exact ih (dripStep_inv h)

@[simp] theorem dripSteps_A (n : Nat) : (dripSteps n q).1.A = q.A := by
  induction n generalizing q with
  | zero => rfl
  | succ n ih => exact ih (dripStep q)

@[simp] theorem xorSteps_A (src : List Byte) : (xorSteps src q).1.A = q.A := by
  induction src generalizing q with
  | nil => rfl
  | cons b src ih => exact ih (dripStep q)

@[simp] theorem dripSteps_length (n : Nat) : (dripSteps n q).2.length = n := by
  induction n generalizing q with
  | zero => rfl
  | succ n ih => simp [dripSteps, ih]

@[simp] theorem xorSteps_length (src : List Byte) : (xorSteps src q).2.length = src.length := by
  induction src generalizing q with
  | nil => rfl
  | cons b src ih => simp [xorSteps, ih]

/-- Runs of output steps join. -/
theorem dripSteps_add (n m : Nat) :
    dripSteps (n + m) q =
      ((dripSteps m (dripSteps n q).1).1, (dripSteps n q).2 ++ (dripSteps m (dripSteps n q).1).2) := by
  induction n generalizing q with
  | zero => simp [dripSteps]
  | succ n ih =>
    rw [show n + 1 + m = (n + m) + 1 by omega]
    simp [dripSteps, ih]

theorem xorSteps_append (x y : List Byte) :
    xorSteps (x ++ y) q =
      ((xorSteps y (xorSteps x q).1).1, (xorSteps x q).2 ++ (xorSteps y (xorSteps x q).1).2) := by
  induction x generalizing q with
  | nil => simp [xorSteps]
  | cons b x ih => simp [xorSteps, ih]

/-! ## The checks before a command -/

theorem gate_of_faulted {s : State} (h : s.FLT = true) (r : Result) : gate s r = .next s.refuse := by
  simp [gate, h]

theorem gate_of_clear {s : State} (h : s.FLT = false) (r : Result) : gate s r = r := by simp [gate, h]

theorem withLegalA_of_le {s : State} (h : s.sponge.A ≤ 128) (r : Result) : withLegalA s r = r := by
  simp only [withLegalA, Config.H, h, if_true]

theorem withLegalA_of_gt {s : State} (h : ¬ s.sponge.A ≤ 128) (r : Result) :
    withLegalA s r = .fault .absorbCounterOutOfRange := by
  simp only [withLegalA, Config.H, h, if_false]

/-- Everything a command can do when it answers a next state: refused with `FLT = 1`; or, with `FLT = 0`, run to completion
(it then has passed the check of `A`, or is `ABS` of nothing), or an `XORKS` with a short destination. -/
theorem exec_next_cases {i : Instr} {s t : State} (h : exec i s = .next t) :
    (i = .rst ∧ t = s.clear.complete Sponge.reset []) ∨
    (i ≠ .rst ∧ s.FLT = true ∧ t = s.refuse) ∨
    (s.FLT = false ∧ i = .abs [] ∧ t = s.complete s.sponge []) ∨
    (s.FLT = false ∧ s.sponge.A ≤ 128 ∧ ∃ data, i = .abs data ∧ data ≠ [] ∧
      t = s.complete (absorb s.sponge data) []) ∨
    (s.FLT = false ∧ s.sponge.A ≤ 128 ∧ i = .abstop ∧ t = s.complete (absorbStop s.sponge) []) ∨
    (s.FLT = false ∧ s.sponge.A ≤ 128 ∧ i = .drip ∧
      t = s.complete (dripStep (shuffleIfPending s.sponge)) [(dripStep (shuffleIfPending s.sponge)).Z]) ∨
    (s.FLT = false ∧ s.sponge.A ≤ 128 ∧ ∃ n, i = .sqz n ∧
      t = s.complete (dripSteps n (shuffleIfPending s.sponge)).1 (dripSteps n (shuffleIfPending s.sponge)).2) ∨
    (s.FLT = false ∧ ∃ dcap src, i = .xorks dcap src ∧ dcap < src.length ∧ t = s.faultEntry .eLen) ∨
    (s.FLT = false ∧ s.sponge.A ≤ 128 ∧ ∃ dcap src, i = .xorks dcap src ∧ ¬ dcap < src.length ∧
      t = s.complete (xorSteps src (shuffleIfPending s.sponge)).1 (xorSteps src (shuffleIfPending s.sponge)).2) := by
  by_cases hF : s.FLT = true
  · cases i with
    | rst => simp_all [exec, execRst]
    | _ => simp_all [exec, execAbs, execAbstop, execDrip, execSqz, execXorks, gate_of_faulted]
  · have hF' : s.FLT = false := by simpa using hF
    by_cases hA : s.sponge.A ≤ 128
    · cases i with
      | rst => simp_all [exec, execRst]
      | abs data =>
        by_cases hd : data = [] <;>
          simp_all [exec, execAbs, gate_of_clear, withLegalA_of_le]
      | abstop => simp_all [exec, execAbstop, gate_of_clear, withLegalA_of_le]
      | drip => simp_all [exec, execDrip, gate_of_clear, withLegalA_of_le]
      | sqz n => simp_all [exec, execSqz, gate_of_clear, withLegalA_of_le]
      | xorks dcap src =>
        by_cases hl : dcap < src.length <;>
          simp_all [exec, execXorks, gate_of_clear, withLegalA_of_le]
    · cases i with
      | rst => simp_all [exec, execRst]
      | abs data =>
        by_cases hd : data = [] <;>
          simp_all [exec, execAbs, gate_of_clear, withLegalA_of_gt hA]
      | abstop => simp [exec, execAbstop, gate_of_clear hF', withLegalA_of_gt hA] at h
      | drip => simp [exec, execDrip, gate_of_clear hF', withLegalA_of_gt hA] at h
      | sqz n => simp [exec, execSqz, gate_of_clear hF', withLegalA_of_gt hA] at h
      | xorks dcap src =>
        by_cases hl : dcap < src.length <;>
          simp_all [exec, execXorks, gate_of_clear, withLegalA_of_gt hA]

end Sys2Proof.Machine
end

