-- ==== Sys2Proof/Laws/Encoding.lean ====
section
/-! SUPPORT. The header's fields as arithmetic (30_encoding.md R46): what the decoder reads from a header, and that it
reads back what the encoder put there. -/

namespace Sys2Proof

theorem fitsLen_iff {n : Nat} : fitsLen n = true ↔ n ≤ 4095 := by
  unfold fitsLen
  rw [decide_eq_true_iff]
  exact Iff.rfl

theorem Header.op_toNat (h : Header) : (Header.op h).toNat = h.toNat / 2 ^ 24 := by
  have := h.isLt
  simp only [Header.op, BitVec.extractLsb'_toNat, Nat.shiftRight_eq_div_pow]
  omega

theorem Header.dcap_toNat (h : Header) : (Header.dcap h).toNat = h.toNat / 2 ^ 12 % 2 ^ 12 := by
  simp only [Header.dcap, BitVec.extractLsb'_toNat, Nat.shiftRight_eq_div_pow]

theorem Header.len_toNat (h : Header) : (Header.len h).toNat = h.toNat % 2 ^ 12 := by
  simp only [Header.len, BitVec.extractLsb'_toNat, Nat.shiftRight_zero]

/-- R46: the number the fields make, when each fits. -/
theorem mkHeader_toNat {op dcap len : Nat} (ho : op < 256) (hd : dcap ≤ 4095) (hl : len ≤ 4095) :
    (mkHeader op dcap len).toNat = op * 2 ^ 24 + dcap * 2 ^ 12 + len := by
  unfold mkHeader
  rw [BitVec.toNat_ofNat]
  omega

theorem mkHeader_op {op dcap len : Nat} (ho : op < 256) (hd : dcap ≤ 4095) (hl : len ≤ 4095) :
    (Header.op (mkHeader op dcap len)).toNat = op := by
  rw [Header.op_toNat, mkHeader_toNat ho hd hl]; omega

theorem mkHeader_dcap {op dcap len : Nat} (ho : op < 256) (hd : dcap ≤ 4095) (hl : len ≤ 4095) :
    (Header.dcap (mkHeader op dcap len)).toNat = dcap := by
  rw [Header.dcap_toNat, mkHeader_toNat ho hd hl]; omega

theorem mkHeader_len {op dcap len : Nat} (ho : op < 256) (hd : dcap ≤ 4095) (hl : len ≤ 4095) :
    (Header.len (mkHeader op dcap len)).toNat = len := by
  rw [Header.len_toNat, mkHeader_toNat ho hd hl]; omega

end Sys2Proof
end

