-- ==== Sys2Proof/Laws/PerInstr.lean ====
section
/-! SUPPORT. Statements made for every command as syntax, one lemma per constructor. -/

namespace Sys2Proof.Laws.HeaderFields

/-- R47: the `op` of the command. -/
def opcode : Instr → Nat
  | .rst => 0x01
  | .abs _ => 0x02
  | .abstop => 0x03
  | .drip => 0x04
  | .sqz _ => 0x05
  | .xorks _ _ => 0x06

/-- R46, R59: the `dcap` field of the command. -/
def dcapField : Instr → Nat
  | .rst => 0
  | .abs _ => 0
  | .abstop => 0
  | .drip => 0
  | .sqz _ => 0
  | .xorks dcap _ => dcap

/-- R46, R59: the `len` field of the command. -/
def lenField : Instr → Nat
  | .rst => 0
  | .abs data => data.length
  | .abstop => 0
  | .drip => 0
  | .sqz n => n
  | .xorks _ src => src.length

/-- R46: the header of an encodable command holds its opcode, its capacity and its length, each in its field. -/
def Statement (i : Instr) : Prop :=
  i.wellFormed = true →
    (Header.op (encode i).header).toNat = opcode i ∧ (Header.dcap (encode i).header).toNat = dcapField i ∧
      (Header.len (encode i).header).toNat = lenField i

theorem rst : Statement .rst := fun _ =>
  ⟨mkHeader_op (by omega) (by omega) (by omega), mkHeader_dcap (by omega) (by omega) (by omega),
    mkHeader_len (by omega) (by omega) (by omega)⟩

theorem abs (data : List Byte) : Statement (.abs data) := fun h =>
  have hl := fitsLen_iff.mp h
  ⟨mkHeader_op (by omega) (by omega) hl, mkHeader_dcap (by omega) (by omega) hl,
    mkHeader_len (by omega) (by omega) hl⟩

theorem abstop : Statement .abstop := fun _ =>
  ⟨mkHeader_op (by omega) (by omega) (by omega), mkHeader_dcap (by omega) (by omega) (by omega),
    mkHeader_len (by omega) (by omega) (by omega)⟩

theorem drip : Statement .drip := fun _ =>
  ⟨mkHeader_op (by omega) (by omega) (by omega), mkHeader_dcap (by omega) (by omega) (by omega),
    mkHeader_len (by omega) (by omega) (by omega)⟩

theorem sqz (n : Nat) : Statement (.sqz n) := fun h =>
  have hl := fitsLen_iff.mp h
  ⟨mkHeader_op (by omega) (by omega) hl, mkHeader_dcap (by omega) (by omega) hl,
    mkHeader_len (by omega) (by omega) hl⟩

theorem xorks (dcap : Nat) (src : List Byte) : Statement (.xorks dcap src) := fun h =>
  have h2 := Bool.and_eq_true_iff.mp h
  have hd := fitsLen_iff.mp h2.1
  have hl := fitsLen_iff.mp h2.2
  ⟨mkHeader_op (by omega) hd hl, mkHeader_dcap (by omega) hd hl, mkHeader_len (by omega) hd hl⟩

end Sys2Proof.Laws.HeaderFields
end

