-- ==== Sys2Proof/Machine/Assembler.lean ====
section
/-! DEFINITION. The assembler syntax of 30_encoding.md R56, its listing form, and the pseudo-instructions of R57. Text is a
list of characters. What R56 leaves open is chosen in log 18. -/

namespace Sys2Proof.Machine

/-- Source text. -/
abbrev Text := List Char

/-- The double quote that delimits an ASCII string (R56). -/
def quoteMark : Char := Char.ofNat 34

/-- A blank between words. -/
def isBlank (c : Char) : Bool := c == ' ' || c == '\t'

/-- The text without blanks at its two ends. -/
def trim (t : Text) : Text := ((t.dropWhile isBlank).reverse.dropWhile isBlank).reverse

/-- The text cut at every character that satisfies `p`. -/
def splitText (p : Char → Bool) : Text → List Text
  | [] => [[]]
  | c :: t =>
    if p c then [] :: splitText p t
    else
      match splitText p t with
      | [] => [[c]]
      | w :: ws => (c :: w) :: ws

/-- R56: `;` starts a comment; inside a quoted string it is a character of the string (log 18). -/
def stripComment : Bool → Text → Text
  | _, [] => []
  | quoted, c :: t =>
    if c = ';' && !quoted then []
    else c :: stripComment (if c = quoteMark then !quoted else quoted) t

/-- The value of a hexadecimal digit, of either case (log 18). -/
def hexDigit (c : Char) : Option Nat :=
  let n := c.toNat
  if 48 ≤ n ∧ n ≤ 57 then some (n - 48)
  else if 97 ≤ n ∧ n ≤ 102 then some (n - 87)
  else if 65 ≤ n ∧ n ≤ 70 then some (n - 55)
  else none

/-- A two-digit hexadecimal byte (R56). -/
def hexByte : Text → Option Byte
  | [a, b] =>
    match hexDigit a, hexDigit b with
    | some x, some y => some (BitVec.ofNat 8 (16 * x + y))
    | _, _ => none
  | _ => none

/-- The rest of a quoted ASCII string, up to the quote that ends the operand; no terminator is added (R56). -/
def quotedRest : Text → Option (List Byte)
  | [] => none
  | c :: t =>
    if c = quoteMark then (if t = [] then some [] else none)
    else if c.toNat < 128 then (quotedRest t).map fun bs => BitVec.ofNat 8 c.toNat :: bs
    else none

/-- `<bytes>` (R56): `-` for the empty sequence, a quoted string, or two-digit bytes separated by blanks. -/
def bytesOperand (t : Text) : Option (List Byte) :=
  if t = ['-'] then some []
  else if t.head? = some quoteMark then quotedRest t.tail
  else
    match (splitText isBlank t).filter (fun w => w ≠ []) with
    | [] => none
    | ws => ws.mapM hexByte

/-- A decimal natural, `<n>`, `<dcap>` or `<r>` (R56, R57). -/
def decimalOperand (t : Text) : Option Nat :=
  if t = [] then none
  else t.foldlM (fun acc c => if 48 ≤ c.toNat ∧ c.toNat ≤ 57 then some (10 * acc + (c.toNat - 48)) else none) 0

/-- `<n>, <bytes>`: cut at the first comma. -/
def numberThenBytes (t : Text) : Option (Nat × List Byte) :=
  match decimalOperand (trim (t.takeWhile (· ≠ ','))), bytesOperand (trim ((t.dropWhile (· ≠ ',')).drop 1)) with
  | some n, some bs => if ',' ∈ t then some (n, bs) else none
  | _, _ => none

/-- `<bytes>, <r>`: cut at the last comma, since a quoted string may hold one. -/
def bytesThenNumber (t : Text) : Option (List Byte × Nat) :=
  let back := t.reverse
  match bytesOperand (trim ((back.dropWhile (· ≠ ',')).drop 1).reverse),
      decimalOperand (trim (back.takeWhile (· ≠ ',')).reverse) with
  | some bs, some n => if ',' ∈ t then some (bs, n) else none
  | _, _ => none

/-- One command, when one header can carry it: R56 bounds `<n>`, `<dcap>` and `len` by 4095. -/
def oneCommand (i : Instr) : Option (List Instr) := if i.wellFormed then some [i] else none

/-- The commands of one mnemonic and its operands: the six of R56 and the pseudo-instructions of R57. -/
def assembleCommand (mnemonic operand : Text) : Option (List Instr) :=
  if mnemonic = ['R', 'S', 'T'] then
    if operand = [] then some [.rst] else none
  else if mnemonic = ['A', 'B', 'S'] then (bytesOperand operand).bind fun bs => oneCommand (.abs bs)
  else if mnemonic = ['A', 'B', 'S', 'T', 'O', 'P'] then
    if operand = [] then some [.abstop] else none
  else if mnemonic = ['D', 'R', 'I', 'P'] then
    if operand = [] then some [.drip] else none
  else if mnemonic = ['S', 'Q', 'Z'] then (decimalOperand operand).bind fun n => oneCommand (.sqz n)
  else if mnemonic = ['X', 'O', 'R', 'K', 'S'] then
    (numberThenBytes operand).bind fun p => oneCommand (.xorks p.1 p.2)
  else if mnemonic = ['A', 'B', 'S', 'O', 'R', 'B'] then (bytesOperand operand).map absorbSeq
  else if mnemonic = ['S', 'Q', 'U', 'E', 'E', 'Z', 'E'] then (decimalOperand operand).map squeezeSeq
  else if mnemonic = ['X', 'O', 'R', 'S', 'T', 'R', 'E', 'A', 'M'] then
    (numberThenBytes operand).bind fun p => xorStreamSeq p.1 p.2
  else if mnemonic = ['K', 'E', 'Y'] then (bytesOperand operand).map keySeq
  else if mnemonic = ['H', 'A', 'S', 'H'] then (bytesThenNumber operand).map fun p => hashSeq p.1 p.2
  else none

/-- One line: a command with its operands, or nothing but blanks and a comment. -/
def assembleLine (line : Text) : Option (List Instr) :=
  let t := trim (stripComment false line)
  if t = [] then some []
  else assembleCommand (t.takeWhile fun c => !isBlank c) (trim (t.dropWhile fun c => !isBlank c))

/-- R56: one command per line. -/
def assemble (source : Text) : Option (List Instr) :=
  ((splitText (· == '\n') source).mapM assembleLine).map List.flatten

/-- A hexadecimal digit, lower case as the spec prints data. -/
def hexChar (d : Nibble) : Char :=
  if d.toNat < 10 then Char.ofNat (48 + d.toNat) else Char.ofNat (87 + d.toNat)

/-- A byte as two hexadecimal digits. -/
def hexText (b : Byte) : Text := [hexChar (b.extractLsb' 4 4), hexChar (b.extractLsb' 0 4)]

/-- R56: a listing shows a command as its 8-digit hexadecimal header followed by the payload bytes. -/
def listing (t : Transaction) : Text :=
  hexText (t.header.extractLsb' 24 8) ++ hexText (t.header.extractLsb' 16 8) ++
    hexText (t.header.extractLsb' 8 8) ++ hexText (t.header.extractLsb' 0 8) ++
    t.payload.flatMap fun b => ' ' :: hexText b

end Sys2Proof.Machine
end

