-- ==== Sys2Proof/Tests/Slice0.lean ====
section
/-! SUPPORT. Tests. The expected results are the spec's: the encodings of 30_encoding.md R46, R47 written out bit by bit, and
the vectors T1 to T31 of 95_test_vectors.md. No test runs a Shuffle in the kernel (1536 Updates). The last part shows,
for every statement that has hypotheses, a concrete state and operands that meet them. -/

namespace Sys2Proof.Tests

open Sys2Proof.Machine

/-! ## Helpers -/

/-- The next state, when there is one. -/
def after (r : Result) : Option State :=
  match r with
  | .next t => some t
  | .fault _ => none
  | .refused _ => none

/-- The response of the next state. -/
def answer (r : Result) : Option Response := (after r).bind fun t => t.response

/-- `I J K W Z A` of the next state. -/
def registers (r : Result) : Option (List Byte) :=
  (after r).map fun t => [t.sponge.I, t.sponge.J, t.sponge.K, t.sponge.W, t.sponge.Z, t.sponge.A]

/-- The cells of the next state that differ from the identity. -/
def changedCells (r : Result) : Option Memory := (after r).map fun t => t.sponge.S

/-- `FLT` of the next state. -/
def faultFlag (r : Result) : Option Bool := (after r).map fun t => t.FLT

/-- The reset state with one transaction delivered. -/
def deliver (h : Header) (p : List Byte) : State := { State.reset with input := [.transaction ⟨h, p⟩] }

/-- The reset state with another absorb counter. -/
def counting (a : Byte) : State := { State.reset with sponge := Sponge.reset.setA a }

/-- The reset state with `FLT = 1`. -/
def faulted : State := { State.reset with FLT := true }

/-! ## Well-formedness: one ill-formed term for each check -/

theorem test_abs_of_4096_bytes_refused : (Instr.abs (List.replicate 4096 0)).wellFormed = false := by
  rw [Instr.wellFormed, List.length_replicate]; rfl

theorem test_sqz_4096_refused : (Instr.sqz 4096).wellFormed = false := by decide

theorem test_xorks_capacity_4096_refused : (Instr.xorks 4096 []).wellFormed = false := by decide

theorem test_xorks_of_4096_bytes_refused : (Instr.xorks 0 (List.replicate 4096 0)).wellFormed = false := by
  rw [Instr.wellFormed, List.length_replicate]; rfl

theorem test_longest_lengths_are_well_formed :
    (Instr.sqz 4095).wellFormed = true ∧ (Instr.xorks 4095 [0x61]).wellFormed = true ∧
      (Instr.abs (List.replicate 4095 0)).wellFormed = true :=
  ⟨by decide, by decide, by rw [Instr.wellFormed, List.length_replicate]; rfl⟩

/-! ## Decoding: T27, the headers bit by bit as `op dcap len` (R46) -/

theorem test_decode_rst : decode ⟨0b00000001_000000000000_000000000000, []⟩ = .ok .rst := by decide

theorem test_decode_abs : decode ⟨0b00000010_000000000000_000000000011, [0x41, 0x42, 0x43]⟩ =
    .ok (.abs [0x41, 0x42, 0x43]) := by decide

theorem test_decode_abs_empty : decode ⟨0b00000010_000000000000_000000000000, []⟩ = .ok (.abs []) := by decide

theorem test_decode_abstop : decode ⟨0b00000011_000000000000_000000000000, []⟩ = .ok .abstop := by decide

theorem test_decode_drip : decode ⟨0b00000100_000000000000_000000000000, []⟩ = .ok .drip := by decide

theorem test_decode_sqz_longest : decode ⟨0b00000101_000000000000_111111111111, []⟩ = .ok (.sqz 4095) := by decide

theorem test_decode_xorks : decode ⟨0b00000110_000000000101_000000000001, [0x61]⟩ = .ok (.xorks 5 [0x61]) := by decide

theorem test_decode_xorks_capacity_only : decode ⟨0b00000110_111111111111_000000000000, []⟩ =
    .ok (.xorks 4095 []) := by decide

theorem test_decode_reserved_opcodes :
    decode ⟨0x00000000, []⟩ = .error .reservedOpcode ∧ decode ⟨0x07000000, []⟩ = .error .reservedOpcode ∧
      decode ⟨0xFF000000, []⟩ = .error .reservedOpcode := by decide

theorem test_decode_nonzero_fields :
    decode ⟨0x01000001, []⟩ = .error .nonzeroField ∧ decode ⟨0x01001000, []⟩ = .error .nonzeroField ∧
      decode ⟨0x02001001, [0x61]⟩ = .error .nonzeroField ∧ decode ⟨0x03000001, []⟩ = .error .nonzeroField ∧
      decode ⟨0x03001000, []⟩ = .error .nonzeroField ∧ decode ⟨0x04000001, []⟩ = .error .nonzeroField ∧
      decode ⟨0x05001000, []⟩ = .error .nonzeroField := by decide

theorem test_decode_payload_lengths :
    decode ⟨0x01000000, [0x61]⟩ = .error .payloadLength ∧ decode ⟨0x02000002, [0x61]⟩ = .error .payloadLength ∧
      decode ⟨0x02000001, [0x61, 0x62]⟩ = .error .payloadLength ∧
      decode ⟨0x05000001, [0x61]⟩ = .error .payloadLength ∧
      decode ⟨0x06002003, [0x61, 0x62]⟩ = .error .payloadLength ∧
      decode ⟨0x06000001, []⟩ = .error .payloadLength := by decide

theorem test_encode_words :
    encode .rst = ⟨0x01000000, []⟩ ∧ encode (.abs [0x61]) = ⟨0x02000001, [0x61]⟩ ∧
      encode .abstop = ⟨0x03000000, []⟩ ∧ encode .drip = ⟨0x04000000, []⟩ ∧ encode (.sqz 8) = ⟨0x05000008, []⟩ ∧
      encode (.xorks 5 [0x68, 0x65]) = ⟨0x06005002, [0x68, 0x65]⟩ := by decide

theorem test_table_words :
    decodeTableWord 32 0x01000000 = some .rst ∧ decodeTableWord 32 0x02000002 = some (.abs [0, 0]) ∧
      decodeTableWord 32 0x03000000 = some .abstop ∧ decodeTableWord 32 0x04000000 = some .drip ∧
      decodeTableWord 32 0x05000FFF = some (.sqz 4095) ∧ decodeTableWord 32 0x06002001 = some (.xorks 2 [0]) ∧
      decodeTableWord 40 0x6102000001 = some (.abs [0x61]) ∧ decodeTableWord 32 0x07000000 = none := by decide

/-! ## The array -/

theorem test_swap : (Memory.swap [] 1 4).read 1 = 4 ∧ (Memory.swap [] 1 4).read 4 = 1 ∧
    Memory.swap (Memory.swap [] 1 4) 1 4 = [] ∧ Memory.swap [] 7 7 = [] := by decide

/-! ## Commands, one step each -/

/-- T1, T2b. -/
theorem test_rst : exec .rst { faulted with sponge := ⟨[(0, 1), (1, 0)], 2, 3, 4, 5, 6, 7⟩ } =
    .next { State.reset with response := some ⟨.ok, []⟩ } := rfl

/-- T3. -/
theorem test_abs_A : changedCells (exec (.abs [0x41]) State.reset) =
      some [(0x00, 0x81), (0x01, 0x84), (0x81, 0x00), (0x84, 0x01)] ∧
    registers (exec (.abs [0x41]) State.reset) = some [0, 0, 0, 1, 0, 2] := by decide

/-- T5, the rows that tell the nibble orders apart. -/
theorem test_abs_nibble_order :
    changedCells (exec (.abs [0x80]) State.reset) = some [(0x00, 0x80), (0x01, 0x88), (0x80, 0x00), (0x88, 0x01)] ∧
      changedCells (exec (.abs [0x08]) State.reset) =
        some [(0x00, 0x88), (0x01, 0x80), (0x80, 0x01), (0x88, 0x00)] := by decide

/-- T7. -/
theorem test_abstop : changedCells (exec .abstop State.reset) = some [] ∧
    registers (exec .abstop State.reset) = some [0, 0, 0, 1, 0, 1] := by decide

/-- T17, first byte. -/
theorem test_drip : answer (exec .drip State.reset) = some ⟨.ok, [0x04]⟩ ∧
    registers (exec .drip State.reset) = some [1, 1, 2, 1, 4, 0] := by decide

/-- T18, first four bytes. -/
theorem test_sqz : answer (exec (.sqz 4) State.reset) = some ⟨.ok, [0x04, 0x14, 0x45, 0xCE]⟩ := by decide

/-- T19 (a). -/
theorem test_sqz_zero : exec (.sqz 0) State.reset = .next { State.reset with response := some ⟨.ok, []⟩ } := rfl

/-- T31. -/
theorem test_xorks : answer (exec (.xorks 4 [0x74, 0x65, 0x73, 0x74]) State.reset) =
    some ⟨.ok, [0x70, 0x71, 0x36, 0xBA]⟩ := by decide

/-- T26: the pending Shuffle does not run. -/
theorem test_xorks_short : exec (.xorks 2 [0x61, 0x62, 0x63]) (counting 2) =
    .next { counting 2 with FLT := true, response := some ⟨.eLen, []⟩ } := rfl

/-! ## Internal operations -/

/-- T13, steps 1 and 2. -/
theorem test_update : (update (update Sponge.reset)).J = 0x05 ∧ (update (update Sponge.reset)).K = 0x09 ∧
    (update (update Sponge.reset)).S = [(2, 5), (5, 2)] := by decide

/-- T13b: every sum wraps. -/
theorem test_update_wraps : update ⟨[], 0xFE, 0xF0, 0x20, 0x07, 0, 0⟩ =
    ⟨[(0x05, 0x15), (0x15, 0x05)], 0x05, 0x15, 0x3A, 0x07, 0, 0⟩ := by decide

/-- T15 (c), two of its pairs. -/
theorem test_crush_pair : crushPair [(0, 0xFF), (255, 0)] 0 = [] ∧ crushPair [(127, 0x80), (128, 0x7F)] 127 = [] ∧
    crushPair [(5, 6), (6, 5)] 5 = [(5, 6), (6, 5)] := by decide

/-! ## Steps -/

/-- T27: a legal transaction and an ILLEGAL one. -/
theorem test_step_delivers :
    answer (step (deliver 0x05000002 [])) = some ⟨.ok, [0x04, 0x14]⟩ ∧
      answer (step (deliver 0x06002003 [0x61, 0x62])) = some ⟨.eIllegal, []⟩ ∧
      faultFlag (step (deliver 0x06002003 [0x61, 0x62])) = some true := by decide

/-- T28 steps 6, 8, 9: an ILLEGAL header and a near-`RST` are refused, a legal `RST` is not. -/
theorem test_step_faulted :
    answer (step { deliver 0x07000000 [] with FLT := true }) = some ⟨.eFaulted, []⟩ ∧
      answer (step { deliver 0x01000001 [] with FLT := true }) = some ⟨.eFaulted, []⟩ ∧
      faultFlag (step { deliver 0x01000001 [] with FLT := true }) = some true ∧
      answer (step { deliver 0x01000000 [] with FLT := true }) = some ⟨.ok, []⟩ ∧
      faultFlag (step { deliver 0x01000000 [] with FLT := true }) = some false := by decide

/-- R140. -/
theorem test_hardware_reset :
    step { faulted with sponge := ⟨[(0, 1), (1, 0)], 2, 3, 4, 5, 6, 7⟩, input := [.resetDuring ⟨0x04000000, []⟩] } =
      .next State.reset := rfl

theorem test_placed_word_runs :
    answer (step (State.reset.withFetchWord 32 0x04000000)) = some ⟨.ok, [0x04]⟩ ∧
      answer (step (State.reset.withFetchWord 32 0x06001001)) = some ⟨.ok, [0x04]⟩ := by decide

/-! ## Host sequences and assembler text -/

/-- R57: one `ABS -` for nothing, one `SQZ 0` for zero, full commands first. -/
theorem test_sequences :
    absorbSeq [] = [.abs []] ∧ squeezeSeq 0 = [.sqz 0] ∧ squeezeSeq 8191 = [.sqz 4095, .sqz 4095, .sqz 1] ∧
      squeezeSeq 4095 = [.sqz 4095] ∧ xorStreamSeq 2 [1, 2, 3] = none ∧ hashCall [0x61] (-1) = [] := by decide

/-- R110, R111: the hash of `ABC` at size 32. -/
theorem test_hash_sequence : hashSeq [0x41, 0x42, 0x43] 32 =
    [.abs [0x41, 0x42, 0x43], .abstop, .abs [0x20], .sqz 32] := by decide

/-- P3 of 95_test_vectors.md, line 3, and a comment line. -/
theorem test_assembler :
    assembleLine ("XORKS 5, " ++ String.ofList [quoteMark] ++ "hello" ++ String.ofList [quoteMark] ++ " ; five").toList =
      some [.xorks 5 [0x68, 0x65, 0x6C, 0x6C, 0x6F]] ∧
      assembleLine "ABS 41 42 43".toList = some [.abs [0x41, 0x42, 0x43]] ∧ assembleLine "ABS -".toList = some [.abs []] ∧
      assembleLine "SQZ 4096".toList = none ∧ assembleLine "; nothing".toList = some [] := by decide

/-- R56: the listing form. -/
theorem test_listing : listing (encode (.xorks 5 [0x68, 0x6F])) = "06005002 68 6f".toList := by decide

/-! ## Witnesses: a state and operands that meet the hypotheses of each statement

A statement about a core that runs is met by the reset state and, at the ends of the counter's range, by `counting 0`,
`counting 127` and `counting 128`. -/

theorem witness_CanonicalMemoryIsItsBytes : Memory.wf [] ∧ Memory.wf [(0, 1), (1, 0)] ∧ Memory.wf [(255, 0)] := by
  decide

/-- One transaction for each clause of the decision list, with the lengths at their bounds. -/
theorem witness_DecodeIsTheDecisionList :
    let fields (h : Header) := (h.toNat / 2 ^ 24, h.toNat / 2 ^ 12 % 2 ^ 12, h.toNat % 2 ^ 12)
    fields 0x01000000 = (1, 0, 0) ∧ fields 0x02000000 = (2, 0, 0) ∧ fields 0x02000FFF = (2, 0, 4095) ∧
      (List.replicate 4095 (0 : Byte)).length = 4095 ∧ fields 0x03000000 = (3, 0, 0) ∧
      fields 0x04000000 = (4, 0, 0) ∧ fields 0x05000000 = (5, 0, 0) ∧ fields 0x05000FFF = (5, 0, 4095) ∧
      fields 0x06000000 = (6, 0, 0) ∧ fields 0x06FFFFFF = (6, 4095, 4095) ∧ fields 0x00000000 = (0, 0, 0) ∧
      fields 0x01000001 = (1, 0, 1) ∧ fields 0x05001000 = (5, 1, 0) ∧ fields 0x07000000 = (7, 0, 0) :=
  ⟨by decide, by decide, by decide, List.length_replicate, by decide, by decide, by decide, by decide, by decide,
    by decide, by decide, by decide, by decide, by decide⟩

theorem witness_DecodeOfEncodeIsTheCommand :
    Instr.rst.wellFormed = true ∧ (Instr.abs []).wellFormed = true ∧ (Instr.abs (List.replicate 4095 0)).wellFormed = true ∧
      Instr.abstop.wellFormed = true ∧ Instr.drip.wellFormed = true ∧ (Instr.sqz 0).wellFormed = true ∧
      (Instr.sqz 4095).wellFormed = true ∧ (Instr.xorks 0 [0x61]).wellFormed = true ∧
      (Instr.xorks 4095 []).wellFormed = true :=
  ⟨rfl, rfl, by rw [Instr.wellFormed, List.length_replicate]; rfl, rfl, rfl, rfl, rfl, rfl, rfl⟩

theorem witness_EncodeOfDecodeIsTheTransaction : decode ⟨0x06FFF001, [0x61]⟩ = .ok (.xorks 4095 [0x61]) := by decide

/-- A transaction answered `OK`, and one answered otherwise. -/
theorem witness_OutputHasTheTableLength :
    (deliver 0x05000002 []).input = .transaction ⟨0x05000002, []⟩ :: [] ∧ (∃ u, step (deliver 0x05000002 []) = .next u) ∧
      (deliver 0x07000000 []).input = .transaction ⟨0x07000000, []⟩ :: [] ∧ (∃ u, step (deliver 0x07000000 []) = .next u) :=
  ⟨rfl, ⟨_, rfl⟩, rfl, ⟨_, rfl⟩⟩

/-- Every constructor answers a next state from the reset state. -/
theorem witness_StatusCodesAreTheTable :
    (∃ t, exec .rst State.reset = .next t) ∧ (∃ t, exec (.abs [0x41]) State.reset = .next t) ∧
      (∃ t, exec .abstop State.reset = .next t) ∧ (∃ t, exec .drip State.reset = .next t) ∧
      (∃ t, exec (.sqz 2) State.reset = .next t) ∧ (∃ t, exec (.xorks 1 [0x41]) State.reset = .next t) :=
  ⟨⟨_, rfl⟩, ⟨_, rfl⟩, ⟨_, rfl⟩, ⟨_, rfl⟩, ⟨_, rfl⟩, ⟨_, rfl⟩⟩

/-- A step that swaps, and one for each of the three resets. -/
theorem witness_SwapIsTheOnlyChangeOfTheArray :
    (∃ t, step (deliver 0x02000001 [0x41]) = .next t) ∧ (∃ t, step (deliver 0x01000000 []) = .next t) ∧
      (∃ t, step { State.reset with input := [.hardwareReset] } = .next t) ∧
      ∃ t, step { State.reset with input := [.resetDuring ⟨0x04000000, []⟩] } = .next t :=
  ⟨⟨_, rfl⟩, ⟨_, rfl⟩, ⟨_, rfl⟩, ⟨_, rfl⟩⟩

/-- A transaction with the opcode of `RST` that is not `RST`. -/
theorem witness_RstCompletesInEveryState :
    Header.op (Transaction.mk 0x01000001 []).header = 0x01 ∧ Transaction.mk 0x01000001 [] ≠ ⟨0x01000000, []⟩ ∧
      Header.op (Transaction.mk 0x01000000 [0x61]).header = 0x01 ∧ Transaction.mk 0x01000000 [0x61] ≠ ⟨0x01000000, []⟩ := by
  decide

theorem witness_ResetValuesAreTheConstant :
    { faulted with input := [.hardwareReset] }.input = .hardwareReset :: [] := rfl

theorem witness_RstForgetsEverything :
    (∃ p, issue [.rst, .sqz 2] (counting 2) = .next p) ∧ (∃ t, exec .rst faulted = .next t) :=
  ⟨⟨_, rfl⟩, ⟨_, rfl⟩⟩

theorem witness_AbsorbNibbleSwapsAndCounts :
    Sponge.reset.A ≤ 128 ∧ (Sponge.reset.setA 127).A ≤ 128 ∧ (Sponge.reset.setA 128).A ≤ 128 := by decide

theorem witness_AbsAbsorbsLowNibbleFirst :
    (State.reset.FLT = false ∧ State.reset.sponge.A ≤ 128) ∧
      ((counting 128).FLT = false ∧ (counting 128).sponge.A ≤ 128) ∧ (counting 200).FLT = false ∧ faulted.FLT = true := by
  decide

theorem witness_AbsOfNothingChangesNothing : (counting 128).FLT = false := rfl

theorem witness_AbsSplitsAnywhere :
    (∃ t, exec (.abs [0x41]) State.reset = .next t) ∧ (∃ t, exec (.abs [0x41]) faulted = .next t) :=
  ⟨⟨_, rfl⟩, ⟨_, rfl⟩⟩

theorem witness_AbsShufflesWhereTheCountSays :
    ((counting 0).FLT = false ∧ (counting 0).sponge.A ≤ 128) ∧
      ((counting 128).FLT = false ∧ (counting 128).sponge.A ≤ 128) ∧ [(0x41 : Byte)] ≠ [] := by decide

theorem witness_AbsFrameWithoutShuffle :
    (counting 126).FLT = false ∧ (counting 126).sponge.A.toNat + 2 * [(0x41 : Byte)].length ≤ 128 ∧
      (counting 128).sponge.A.toNat + 2 * ([] : List Byte).length ≤ 128 := by decide

theorem witness_AbstopCountsWithoutSwap :
    ((counting 0).FLT = false ∧ (counting 0).sponge.A ≤ 128 ∧ (counting 0).sponge.A ≠ 128) ∧
      ((counting 127).FLT = false ∧ (counting 127).sponge.A ≤ 128 ∧ (counting 127).sponge.A ≠ 128) ∧
      ((counting 128).FLT = false ∧ (counting 128).sponge.A ≤ 128 ∧ (counting 128).sponge.A = 128) ∧
      faulted.FLT = true := by decide

theorem witness_AbsorbingKeepsZ :
    (∃ t, exec (.abs [0x41]) State.reset = .next t) ∧ (∃ t, exec .abstop State.reset = .next t) :=
  ⟨⟨_, rfl⟩, ⟨_, rfl⟩⟩

theorem witness_StrideVisitsEveryCellTwiceAndComesBack :
    Sponge.reset.W.toNat % 2 = 1 ∧ (Sponge.reset.setW 255).W.toNat % 2 = 1 := by
  decide

theorem witness_CrushOrdersEveryPair : Sponge.reset.S.IsPermutation ∧ (0 : Byte) < 128 ∧ (127 : Byte) < 128 :=
  ⟨Memory.isPermutation_nil, by decide, by decide⟩

theorem witness_DripRunsOneUpdateAndOneOutput :
    ((counting 0).FLT = false ∧ (counting 0).sponge.A ≤ 128 ∧ (counting 0).sponge.A = 0) ∧
      ((counting 1).FLT = false ∧ (counting 1).sponge.A ≤ 128 ∧ (counting 1).sponge.A > 0) ∧
      ((counting 128).FLT = false ∧ (counting 128).sponge.A ≤ 128 ∧ (counting 128).sponge.A > 0) ∧
      faulted.FLT = true := by decide

theorem witness_SqzEmitsTheDripSteps :
    ((counting 0).FLT = false ∧ (counting 0).sponge.A ≤ 128) ∧
      ((counting 128).FLT = false ∧ (counting 128).sponge.A ≤ 128) ∧ faulted.FLT = true := by decide

theorem witness_ZeroLengthOutputsRunThePendingShuffle :
    ((counting 0).FLT = false ∧ (counting 0).sponge.A ≤ 128 ∧ (counting 0).sponge.A = 0) ∧
      ((counting 1).FLT = false ∧ (counting 1).sponge.A ≤ 128 ∧ (counting 1).sponge.A > 0) := by decide

theorem witness_SqzSplitsAnywhere : (counting 128).FLT = false ∧ (counting 128).sponge.A ≤ 128 := by decide

theorem witness_OutputFrameWithoutShuffle :
    State.reset.FLT = false ∧ State.reset.sponge.A = 0 ∧ [(0x41 : Byte)].length = 1 ∧ 1 ≤ 1 := by decide

theorem witness_XorksXorsTheKeystream :
    ((counting 0).FLT = false ∧ (counting 0).sponge.A ≤ 128 ∧ [(0x41 : Byte)].length ≤ 1) ∧
      ((counting 128).FLT = false ∧ (counting 128).sponge.A ≤ 128 ∧ ([] : List Byte).length ≤ 0) ∧ faulted.FLT = true ∧
      0 < [(0x61 : Byte)].length := by decide

theorem witness_XorksShortDestinationFaults :
    (counting 2).FLT = false ∧ (counting 2).sponge.A ≤ 128 ∧ 2 < [(0x61 : Byte), 0x62, 0x63].length ∧
      [(0x61 : Byte), 0x62, 0x63].length ≤ 3 := by decide

theorem witness_XorksIsSqzXored :
    (counting 1).FLT = false ∧ (counting 1).sponge.A ≤ 128 ∧ [(0 : Byte), 0].length ≤ 2 ∧ (∀ b ∈ [(0 : Byte), 0], b = 0) := by
  decide

theorem witness_XorksDecryptsItself :
    (counting 1).FLT = false ∧ (counting 1).sponge.A ≤ 128 ∧ [(0x61 : Byte)].length ≤ 1 ∧ [(0x61 : Byte)].length ≤ 8 := by
  decide

theorem witness_KeystreamIgnoresThePayload :
    (counting 1).FLT = false ∧ (counting 1).sponge.A ≤ 128 ∧ [(0x61 : Byte)].length ≤ 1 ∧ [(0x62 : Byte)].length ≤ 8 ∧
      [(0x61 : Byte)].length = [(0x62 : Byte)].length := by decide

theorem witness_XorksSplitsAnywhere :
    (counting 1).FLT = false ∧ (counting 1).sponge.A ≤ 128 ∧ [(0x61 : Byte)].length ≤ 1 ∧ [(0x62 : Byte)].length ≤ 8 := by
  decide

theorem witness_AbsorbSequenceIsOneAbs :
    (∃ t, exec (.abs [0x41]) State.reset = .next t) ∧ (∃ t, exec (.abs []) State.reset = .next t) :=
  ⟨⟨_, rfl⟩, ⟨_, rfl⟩⟩

theorem witness_SqueezeSequenceIsOneSqz : (counting 128).FLT = false ∧ (counting 128).sponge.A ≤ 128 := by decide

theorem witness_XorStreamSequenceIsOneXorks :
    (counting 128).FLT = false ∧ (counting 128).sponge.A ≤ 128 ∧ 0 < [(0x61 : Byte)].length ∧ [(0x61 : Byte)].length ≤ 1 := by
  decide

theorem witness_HashSequenceGivesTheDigestSize : State.reset.FLT = false ∧ State.reset.sponge.A ≤ 128 := by decide

theorem witness_IllegalTransactionEntersFault :
    (deliver 0x07000000 []).FLT = false ∧ (deliver 0x07000000 []).input = .transaction ⟨0x07000000, []⟩ :: [] ∧
      decode ⟨0x07000000, []⟩ = .error .reservedOpcode := by decide

theorem witness_FaultedCoreRefuses :
    let s : State := { deliver 0x01000001 [] with FLT := true }
    s.FLT = true ∧ s.input = .transaction ⟨0x01000001, []⟩ :: [] ∧ decode ⟨0x01000001, []⟩ ≠ .ok .rst := by decide

/-- One transaction for each of the four cases, on a core with `FLT = 0` and on one with `FLT = 1`. -/
theorem witness_ChecksComeInOrder :
    ((deliver 0x04000000 []).sponge.A ≤ 128 ∧ (deliver 0x04000000 []).input = .transaction ⟨0x04000000, []⟩ :: []) ∧
      (deliver 0x04000000 []).FLT = false ∧ faulted.FLT = true ∧ faulted.sponge.A ≤ 128 ∧
      decode ⟨0x04000000, []⟩ = .ok .drip ∧ decode ⟨0x01000000, []⟩ = .ok .rst ∧ decode ⟨0x07000000, []⟩ ≠ .ok .rst ∧
      decode ⟨0x07000000, []⟩ = .error .reservedOpcode ∧ decode ⟨0x06000001, [0x61]⟩ = .ok (.xorks 0 [0x61]) := by
  decide

/-- One input for each of the four statuses. -/
theorem witness_StatusTellsWhichCheckFired :
    ((deliver 0x04000000 []).sponge.A ≤ 128 ∧ (deliver 0x04000000 []).input = .transaction ⟨0x04000000, []⟩ :: []) ∧
      answer (step (deliver 0x04000000 [])) = some ⟨.ok, [0x04]⟩ ∧
      answer (step (deliver 0x06000001 [0x61])) = some ⟨.eLen, []⟩ ∧
      answer (step (deliver 0x07000000 [])) = some ⟨.eIllegal, []⟩ ∧
      answer (step { deliver 0x06000001 [0x61] with FLT := true }) = some ⟨.eFaulted, []⟩ := by decide

/-- Each of the three ways out of the fault state. -/
theorem witness_OnlyResetLeavesTheFaultState :
    faultFlag (step { deliver 0x01000000 [] with FLT := true }) = some false ∧
      faultFlag (step { faulted with input := [.hardwareReset] }) = some false ∧
      faultFlag (step { faulted with input := [.resetDuring ⟨0x04000000, []⟩] }) = some false := by decide

theorem witness_OnlyFaultEntrySetsFLT :
    faultFlag (step (deliver 0x06000001 [0x61])) = some true ∧ faultFlag (step (deliver 0x07000000 [])) = some true := by
  decide

theorem witness_EveryOtherCommandIsTotal :
    ((counting 128).FLT = false ∧ (counting 128).sponge.A ≤ 128) ∧
      (∀ dcap src, Instr.drip = .xorks dcap src → src.length ≤ dcap) ∧
      ∀ dcap src, Instr.xorks 1 [0x61] = .xorks dcap src → src.length ≤ dcap :=
  ⟨by decide, nofun, fun _ _ h => by cases h; decide⟩

theorem witness_StatusRegisterTellsTheResponse :
    (deliver 0x04000000 []).input = .transaction ⟨0x04000000, []⟩ :: [] ∧ (∃ u, step (deliver 0x04000000 []) = .next u) ∧
      (∃ u, step (deliver 0x07000000 []) = .next u) := ⟨rfl, ⟨_, rfl⟩, ⟨_, rfl⟩⟩

theorem witness_CoresShareNothing :
    ∃ after, stepCore 0 [deliver 0x04000000 [], State.reset] = .next after := ⟨_, rfl⟩

theorem witness_HardwareResetActsAsRst :
    { faulted with input := [.resetDuring ⟨0x04000000, []⟩] }.input = .resetDuring ⟨0x04000000, []⟩ :: [] ∧
      { faulted with input := [.hardwareReset] }.input = .hardwareReset :: [] := ⟨rfl, rfl⟩

theorem witness_StepRunsTheDecodedCommand :
    (deliver 0x04000000 []).input = .transaction ⟨0x04000000, []⟩ :: [] ∧ decode ⟨0x04000000, []⟩ = .ok .drip := by decide

theorem witness_PlacedWordRunsNext : decodeTableWord 32 0x05000008 = some (.sqz 8) := by decide

theorem witness_IdleCoreKeepsItsState : State.reset.input = [] := rfl

theorem witness_CommandsReadOnlySpongeAndFLT :
    State.reset.sponge = (deliver 0x04000000 []).sponge ∧ State.reset.FLT = (deliver 0x04000000 []).FLT ∧
      ∃ t, exec .drip State.reset = .next t := ⟨rfl, rfl, ⟨_, rfl⟩⟩

theorem witness_CounterOutOfRangeIsStuck :
    ((counting 129).FLT = false ∧ 128 < (counting 129).sponge.A) ∧
      ((counting 255).FLT = false ∧ 128 < (counting 255).sponge.A) ∧ 0 < [(0x61 : Byte)].length ∧
      [(0x61 : Byte)].length ≤ 1 := by decide

/-- A good state with a transaction delivered, and a step from it. -/
theorem witness_StepKeepsTheInvariant :
    (deliver 0x04000000 []).Inv ∧ ∃ t, step (deliver 0x04000000 []) = .next t :=
  ⟨⟨reset_inv, fun r h => by cases h⟩, ⟨_, rfl⟩⟩

theorem witness_GoodStateNeverStops : State.reset.Inv ∧ (deliver 0x07000000 []).Inv :=
  ⟨⟨reset_inv, fun r h => by cases h⟩, ⟨reset_inv, fun r h => by cases h⟩⟩

theorem witness_StepKeepsThePermutation :
    (deliver 0x02000001 [0x41]).sponge.S.IsPermutation ∧ ∃ t, step (deliver 0x02000001 [0x41]) = .next t :=
  ⟨Memory.isPermutation_nil, ⟨_, rfl⟩⟩

end Sys2Proof.Tests
end

section
/-! # R6: a command reads the sponge and `FLT` alone

The four ways a command ends (refusal, completion, fault entry, reset) and the two checks before it (`FLT`, the range of `A`)
each carry agreement of two states over to agreement of the answers; every command is built from these. -/

namespace Sys2Proof.Machine

/-- The two states agree on what R6 lets a command read: the sponge and `FLT`. -/
structure State.AgreesWith (s s' : State) : Prop where
  sponge : s.sponge = s'.sponge
  FLT : s.FLT = s'.FLT

/-- Whenever `r` is a next state, so is `r'`, with the same sponge, `FLT` and response. -/
def Answers (r r' : Result) : Prop :=
  ∀ t, r = .next t → ∃ t', r' = .next t' ∧ t'.sponge = t.sponge ∧ t'.FLT = t.FLT ∧ t'.response = t.response

theorem answers_next {t t' : State} (h : t.AgreesWith t') (hr : t.response = t'.response) :
    Answers (.next t) (.next t') := by
  rintro _ ⟨⟩
  exact ⟨t', rfl, h.sponge.symm, h.FLT.symm, hr.symm⟩

theorem answers_fault (e : Fault) (r : Result) : Answers (.fault e) r := nofun

namespace State.AgreesWith

variable {s s' : State} (h : s.AgreesWith s')
include h

theorem answers_refuse : Answers (.next s.refuse) (.next s'.refuse) :=
  answers_next ⟨by simpa using h.sponge, by simpa using h.FLT⟩ (by simp)

theorem answers_complete (q : Sponge) (out : List Byte) :
    Answers (.next (s.complete q out)) (.next (s'.complete q out)) :=
  answers_next ⟨by simp, by simpa using h.FLT⟩ (by simp)

theorem answers_faultEntry (e : Status) : Answers (.next (s.faultEntry e)) (.next (s'.faultEntry e)) :=
  answers_next ⟨by simpa using h.sponge, by simp⟩ (by simp)

theorem answers_gate {r r' : Result} (hr : Answers r r') : Answers (gate s r) (gate s' r') := by
  cases hF : s.FLT with
  | true => simpa only [gate_of_faulted hF, gate_of_faulted (h.FLT ▸ hF)] using h.answers_refuse
  | false => simpa only [gate_of_clear hF, gate_of_clear (h.FLT ▸ hF)] using hr

theorem answers_withLegalA {r r' : Result} (hr : Answers r r') :
    Answers (withLegalA s r) (withLegalA s' r') := by
  by_cases hA : s.sponge.A ≤ 128
  · simpa only [withLegalA_of_le hA, withLegalA_of_le (h.sponge ▸ hA)] using hr
  · simpa only [withLegalA_of_gt hA] using answers_fault _ _

end State.AgreesWith

/-- `RST` reads nothing: any two states are reset to the same. -/
theorem answers_execRst (s s' : State) : Answers (execRst s) (execRst s') :=
  State.AgreesWith.answers_complete (s := s.clear) (s' := s'.clear) ⟨by simp, by simp⟩ Sponge.reset []

/-- R6: every command answers alike from states that agree on the sponge and `FLT`. -/
theorem State.AgreesWith.answers_exec {s s' : State} (h : s.AgreesWith s') (i : Instr) :
    Answers (exec i s) (exec i s') := by
  cases i with
  | rst => exact answers_execRst s s'
  | abs data =>
    simp only [exec, execAbs, ← h.sponge]
    apply h.answers_gate
    split
    · exact h.answers_complete _ _
    · exact h.answers_withLegalA (h.answers_complete _ _)
  | abstop =>
    simp only [exec, execAbstop, ← h.sponge]
    exact h.answers_gate (h.answers_withLegalA (h.answers_complete _ _))
  | drip =>
    simp only [exec, execDrip, ← h.sponge]
    exact h.answers_gate (h.answers_withLegalA (h.answers_complete _ _))
  | sqz n =>
    simp only [exec, execSqz, ← h.sponge]
    exact h.answers_gate (h.answers_withLegalA (h.answers_complete _ _))
  | xorks dcap src =>
    simp only [exec, execXorks, ← h.sponge]
    apply h.answers_gate
    split
    · exact h.answers_faultEntry _
    · exact h.answers_withLegalA (h.answers_complete _ _)

/-- Settles O55: every check and every ending of a command keeps agreement on the sponge and `FLT`. -/
theorem commandsReadOnlySpongeAndFLT : Obligations.CommandsReadOnlySpongeAndFLT :=
  fun i _ _ t hsponge hFLT ht => State.AgreesWith.answers_exec ⟨hsponge, hFLT⟩ i t ht

end Sys2Proof.Machine
end

section
/-! # R22: the reset values

`RST` (R65) and hardware reset (R140) are each given by the state they lead to; both pass through `State.clear`, so the laws of
`clear`, `complete` and `hardReset` give the sponge and `FLT` of `State.reset`. -/

namespace Sys2Proof.Machine

/-- R65: `RST` clears the state and answers `OK` with no byte, whatever the state. -/
theorem exec_rst (s : State) : exec .rst s = .next (s.clear.complete Sponge.reset []) := rfl

/-- R20, R45: the oldest input is the one taken. -/
theorem State.takeInput_of_cons {s : State} {e : Input} {rest : List Input} (h : s.input = e :: rest) :
    s.takeInput = some (e, { s with input := rest }) := by
  simp only [State.takeInput, h]

/-- A step with an input delivered is the core's answer to the oldest one. -/
theorem step_of_cons {s : State} {e : Input} {rest : List Input} (h : s.input = e :: rest) :
    step s = receive e { s with input := rest } := by
  simp only [step, State.takeInput_of_cons h]

/-- R140: a step that takes a hardware reset ends in the hardware reset of the remaining state. -/
theorem step_of_hardwareReset {s : State} {rest : List Input} (h : s.input = .hardwareReset :: rest) :
    step s = .next { s with input := rest }.hardReset :=
  step_of_cons h

@[simp] theorem State.reset_sponge : State.reset.sponge = Sponge.reset := rfl
@[simp] theorem State.reset_FLT : State.reset.FLT = false := rfl

/-- R22: the reset array is the identity. -/
@[simp] theorem Sponge.reset_read (x : Byte) : Sponge.reset.S.read x = x := Memory.read_nil x

/-- Settles O11: both resets go through `State.clear`, and the constant's fields are those R22 lists. -/
theorem resetValuesAreTheConstant : Obligations.ResetValuesAreTheConstant := by
  refine ⟨fun s => ?rst, fun s rest hinput => ?hardwareReset, Sponge.reset_read, ?constant⟩
  case rst => exact ⟨_, exec_rst s, by simp, by simp⟩
  case hardwareReset => exact ⟨_, step_of_hardwareReset hinput, by simp, by simp⟩
  case constant => exact ⟨rfl, rfl, rfl, rfl, rfl, rfl, rfl⟩

end Sys2Proof.Machine
end

section
/-! # R33: swaps are the only changes of the array

Every operation on the sponge keeps whatever a swap keeps (`KeptBySwap`), and so does every command but `RST` and every step
that takes no reset. "Reached from `m₀` by swaps" is such a property, and holds of `m₀` by the empty list of swaps. -/

namespace Sys2Proof.Machine

/-! ## What a swap keeps, every command but `RST` keeps -/

section
variable {P : Memory → Prop} (hP : KeptBySwap P) {q : Sponge} (h : P q.S)
include hP h

theorem shuffleIfFull_keeps : P (shuffleIfFull q).S := by
  unfold shuffleIfFull
  split
  · exact shuffle_keeps q hP h
  · exact h

theorem shuffleIfPending_keeps : P (shuffleIfPending q).S := by
  unfold shuffleIfPending
  split
  · exact shuffle_keeps q hP h
  · exact h

theorem absorbNibble_keeps (v : Nibble) : P (absorbNibble q v).S := by
  rw [absorbNibble, Sponge.setA_S, Sponge.setS_S]
  exact hP _ _ _ (shuffleIfFull_keeps hP h)

theorem absorb_keeps (data : List Byte) : P (absorb q data).S := by
  induction data generalizing q with
  | nil => exact h
  | cons b data ih => exact ih (absorbNibble_keeps hP (absorbNibble_keeps hP h _) _)

theorem absorbStop_keeps : P (absorbStop q).S := by
  rw [absorbStop, Sponge.setA_S]
  exact shuffleIfFull_keeps hP h

theorem dripStep_keeps : P (dripStep q).S := by
  rw [dripStep, output_S]
  exact update_keeps q hP h

theorem dripSteps_keeps (n : Nat) : P (dripSteps n q).1.S := by
  induction n generalizing q with
  | zero => exact h
  | succ n ih => exact ih (dripStep_keeps hP h)

theorem xorSteps_keeps (src : List Byte) : P (xorSteps src q).1.S := by
  induction src generalizing q with
  | nil => exact h
  | cons b src ih => exact ih (dripStep_keeps hP h)

end

/-- R33: a command other than `RST` keeps every property of the array that a swap keeps. -/
theorem exec_keeps {P : Memory → Prop} (hP : KeptBySwap P) {i : Instr} {s t : State} (hi : i ≠ .rst)
    (ht : exec i s = .next t) (h : P s.sponge.S) : P t.sponge.S := by
  have hpending := shuffleIfPending_keeps hP h
  obtain ⟨rfl, -⟩ | ⟨-, -, rfl⟩ | ⟨-, -, rfl⟩ | ⟨-, -, data, -, -, rfl⟩ | ⟨-, -, -, rfl⟩ | ⟨-, -, -, rfl⟩ |
    ⟨-, -, n, -, rfl⟩ | ⟨-, dcap, src, -, -, rfl⟩ | ⟨-, -, dcap, src, -, -, rfl⟩ := exec_next_cases ht
  · exact absurd rfl hi
  · rwa [State.refuse_sponge]
  · rwa [State.complete_sponge]
  · rw [State.complete_sponge]; exact absorb_keeps hP h data
  · rw [State.complete_sponge]; exact absorbStop_keeps hP h
  · rw [State.complete_sponge]; exact dripStep_keeps hP hpending
  · rw [State.complete_sponge]; exact dripSteps_keeps hP hpending n
  · rwa [State.faultEntry_sponge]
  · rw [State.complete_sponge]; exact xorSteps_keeps hP hpending src

/-- R124: a transaction that decodes to ILLEGAL leaves the sponge alone. -/
theorem execIllegal_sponge {s t : State} (ht : execIllegal s = .next t) : t.sponge = s.sponge := by
  cases hF : s.FLT with
  | true =>
    rw [execIllegal, gate_of_faulted hF] at ht
    cases ht
    exact State.refuse_sponge s
  | false =>
    rw [execIllegal, gate_of_clear hF] at ht
    cases ht
    exact State.faultEntry_sponge s _

/-! ## Steps -/

/-- The input is one of the three that reset the sponge: hardware reset, between or during commands (R140), or a transaction
that decodes to `RST` (R65). -/
def Input.IsReset (e : Input) : Prop :=
  e = .hardwareReset ∨ (∃ tr, e = .resetDuring tr) ∨ ∃ tr, e = .transaction tr ∧ decode tr = .ok .rst

/-- R33, R124: acting on a transaction keeps what a swap keeps, unless it is `RST`, which leaves the reset sponge. -/
theorem transact_keeps_or_resets {P : Memory → Prop} (hP : KeptBySwap P) {tr : Transaction} {s t : State}
    (ht : transact tr s = .next t) (h : P s.sponge.S) :
    (t.sponge = Sponge.reset ∧ decode tr = .ok .rst) ∨ P t.sponge.S := by
  unfold transact at ht
  split at ht
  next i hdecode =>
    by_cases hi : i = .rst
    · subst hi
      rw [exec_rst] at ht
      cases ht
      exact .inl ⟨State.complete_sponge .., hdecode⟩
    · exact .inr (exec_keeps hP hi ht h)
  next => exact .inr (execIllegal_sponge ht ▸ h)

/-- R33: acting on an input keeps what a swap keeps, unless the input is a reset, which leaves the reset sponge. -/
theorem receive_keeps_or_resets {P : Memory → Prop} (hP : KeptBySwap P) {e : Input} {s t : State}
    (ht : receive e s = .next t) (h : P s.sponge.S) :
    (t.sponge = Sponge.reset ∧ e.IsReset) ∨ P t.sponge.S := by
  cases e with
  | transaction tr =>
    exact (transact_keeps_or_resets hP ht h).imp_left fun ⟨hreset, hdecode⟩ =>
      ⟨hreset, .inr (.inr ⟨tr, rfl, hdecode⟩)⟩
  | hardwareReset =>
    cases ht
    exact .inl ⟨State.hardReset_sponge s, .inl rfl⟩
  | resetDuring tr =>
    cases ht
    exact .inl ⟨State.hardReset_sponge s, .inr (.inl ⟨tr, rfl⟩)⟩

/-- R131: with nothing delivered a step leaves the state as it is. -/
theorem step_of_nil {s : State} (h : s.input = []) : step s = .next s := by
  simp only [step, State.takeInput, h, State.idle_eq]

/-- R33: a step keeps what a swap keeps, unless it takes a reset, which leaves the reset sponge. -/
theorem step_keeps_or_resets {P : Memory → Prop} (hP : KeptBySwap P) {s t : State} (ht : step s = .next t)
    (h : P s.sponge.S) :
    (t.sponge = Sponge.reset ∧ ∃ e rest, s.input = e :: rest ∧ e.IsReset) ∨ P t.sponge.S := by
  cases hinput : s.input with
  | nil =>
    rw [step_of_nil hinput] at ht
    cases ht
    exact .inr h
  | cons e rest =>
    rw [step_of_cons hinput] at ht
    exact (receive_keeps_or_resets hP ht h).imp_left fun ⟨hreset, he⟩ => ⟨hreset, e, rest, rfl, he⟩

/-! ## The array reached by swaps -/

/-- `m` is `m₀` after some list of swaps, in the list's order. -/
def Memory.ReachedBySwaps (m₀ m : Memory) : Prop :=
  ∃ pairs : List (Byte × Byte), m = pairs.foldl (fun m p => m.swap p.1 p.2) m₀

theorem Memory.ReachedBySwaps.refl (m : Memory) : m.ReachedBySwaps m := ⟨[], rfl⟩

theorem keptBySwap_reachedBySwaps (m₀ : Memory) : KeptBySwap (Memory.ReachedBySwaps m₀) := by
  rintro _ x y ⟨pairs, rfl⟩
  exact ⟨pairs ++ [(x, y)], by simp⟩

theorem Memory.read_swap_left (m : Memory) (x y : Byte) : (m.swap x y).read x = m.read y := by
  simp [Memory.read_swap_eq_comp]

theorem Memory.read_swap_right (m : Memory) (x y : Byte) : (m.swap x y).read y = m.read x := by
  simp [Memory.read_swap_eq_comp]

theorem Memory.read_swap_other (m : Memory) {x y z : Byte} (hx : z ≠ x) (hy : z ≠ y) :
    (m.swap x y).read z = m.read z := by
  rw [Memory.read_swap, if_neg hy, if_neg hx]

theorem Memory.read_swap_same (m : Memory) (x z : Byte) : (m.swap x x).read z = m.read z := by
  simp [Memory.read_swap_eq_comp]

/-- Settles O1: a swap renames cells by the exchange of two; a step that takes no reset keeps being reached by swaps. -/
theorem swapIsTheOnlyChangeOfTheArray : Obligations.SwapIsTheOnlyChangeOfTheArray := by
  refine ⟨fun m x y => ?swap, fun s t ht => ?step⟩
  case swap =>
    refine ⟨m.read_swap_left x y, m.read_swap_right x y, fun z hx hy => m.read_swap_other hx hy, ?_⟩
    rintro rfl z
    exact m.read_swap_same x z
  case step =>
    exact step_keeps_or_resets (keptBySwap_reachedBySwaps s.sponge.S) ht (.refl s.sponge.S)

end Sys2Proof.Machine
end

section
/-! # R50: the decision list

`decode` first reads `op`: one equation per defined value, and the rejection of every other. What is left of each arm is
`accept`, which answers its command exactly when the unused fields are zero and the payload has the wanted length. The fields
are compared as the numbers of R46. -/

namespace Sys2Proof

/-! ## The header's fields compared with numbers -/

theorem Header.op_eq_ofNat_iff {h : Header} {k : Nat} (hk : k < 256) :
    Header.op h = BitVec.ofNat 8 k ↔ h.toNat / 2 ^ 24 = k := by
  rw [← BitVec.toNat_inj, Header.op_toNat, BitVec.toNat_ofNat, Nat.mod_eq_of_lt hk]

theorem Header.dcap_eq_zero_iff {h : Header} : Header.dcap h = 0 ↔ h.toNat / 2 ^ 12 % 2 ^ 12 = 0 := by
  rw [← BitVec.toNat_inj, Header.dcap_toNat]
  rfl

theorem Header.len_eq_zero_iff {h : Header} : Header.len h = 0 ↔ h.toNat % 2 ^ 12 = 0 := by
  rw [← BitVec.toNat_inj, Header.len_toNat]
  rfl

/-! ## One equation per value of `op` -/

section
variable {t : Transaction}

theorem decode_of_op_rst (h : Header.op t.header = 0x01) :
    decode t = accept (Header.dcap t.header == 0 && Header.len t.header == 0) t.payload.length 0 .rst := by
  simp [decode, h]

theorem decode_of_op_abs (h : Header.op t.header = 0x02) :
    decode t = accept (Header.dcap t.header == 0) t.payload.length (Header.len t.header).toNat (.abs t.payload) := by
  simp [decode, h]

theorem decode_of_op_abstop (h : Header.op t.header = 0x03) :
    decode t = accept (Header.dcap t.header == 0 && Header.len t.header == 0) t.payload.length 0 .abstop := by
  simp [decode, h]

theorem decode_of_op_drip (h : Header.op t.header = 0x04) :
    decode t = accept (Header.dcap t.header == 0 && Header.len t.header == 0) t.payload.length 0 .drip := by
  simp [decode, h]

theorem decode_of_op_sqz (h : Header.op t.header = 0x05) :
    decode t = accept (Header.dcap t.header == 0) t.payload.length 0 (.sqz (Header.len t.header).toNat) := by
  simp [decode, h]

theorem decode_of_op_xorks (h : Header.op t.header = 0x06) :
    decode t = accept true t.payload.length (Header.len t.header).toNat
      (.xorks (Header.dcap t.header).toNat t.payload) := by
  simp [decode, h]

/-- R53: every other `op` is reserved. -/
theorem decode_of_op_reserved (h : Header.op t.header ∉ [0x01, 0x02, 0x03, 0x04, 0x05, 0x06]) :
    decode t = .error .reservedOpcode := by
  simp only [List.mem_cons, List.not_mem_nil, or_false, not_or] at h
  obtain ⟨h1, h2, h3, h4, h5, h6⟩ := h
  simp only [decode, h1, h2, h3, h4, h5, h6, if_false]

end

/-! ## The verdict of an arm -/

section
variable {unusedZero : Bool} {payloadLen wanted : Nat} {i : Instr}

/-- R48, R49: an arm answers its command exactly when its two conditions hold. -/
theorem accept_eq_ok_iff {j : Instr} :
    accept unusedZero payloadLen wanted i = .ok j ↔ (unusedZero = true ∧ payloadLen = wanted) ∧ i = j := by
  unfold accept
  split
  next h => simp [h]
  next h =>
    split
    next hlen => simp [h, hlen]
    next hlen => simp [hlen]

end

/-- The condition `c` decides the verdict `r`: where it holds the answer is the command `i`, elsewhere the transaction is
rejected. -/
structure VerdictDecidedBy (c : Prop) (i : Instr) (r : Except Illegal Instr) : Prop where
  accepts : c → r = .ok i
  rejects : ¬ c → ∃ e, r = .error e

theorem verdictDecidedBy_accept {c : Prop} {unusedZero : Bool} {payloadLen wanted : Nat} (i : Instr)
    (hc : c ↔ unusedZero = true ∧ payloadLen = wanted) :
    VerdictDecidedBy c i (accept unusedZero payloadLen wanted i) where
  accepts h := accept_eq_ok_iff.mpr ⟨hc.mp h, rfl⟩
  rejects h := by
    cases hverdict : accept unusedZero payloadLen wanted i with
    | ok j => exact absurd (hc.mpr (accept_eq_ok_iff.mp hverdict).1) h
    | error e => exact ⟨e, rfl⟩

/-! ## Each row of the list: once `op` has the row's value, the row's other conditions decide -/

/-- R50's condition besides `op` on a command that takes no operand: no capacity, no length, no payload. -/
def Transaction.HasNoOperand (t : Transaction) : Prop :=
  t.header.toNat / 2 ^ 12 % 2 ^ 12 = 0 ∧ t.header.toNat % 2 ^ 12 = 0 ∧ t.payload.length = 0

section
variable {t : Transaction}

theorem Transaction.hasNoOperand_iff :
    t.HasNoOperand ↔ (Header.dcap t.header == 0 && Header.len t.header == 0) = true ∧ t.payload.length = 0 := by
  rw [HasNoOperand, Bool.and_eq_true, beq_iff_eq, beq_iff_eq, Header.dcap_eq_zero_iff, Header.len_eq_zero_iff, and_assoc]

theorem decode_rst_decided (hop : t.header.toNat / 2 ^ 24 = 1) :
    VerdictDecidedBy t.HasNoOperand .rst (decode t) := by
  rw [decode_of_op_rst ((Header.op_eq_ofNat_iff (by decide)).mpr hop)]
  exact verdictDecidedBy_accept _ Transaction.hasNoOperand_iff

theorem decode_abs_decided (hop : t.header.toNat / 2 ^ 24 = 2) :
    VerdictDecidedBy (t.header.toNat / 2 ^ 12 % 2 ^ 12 = 0 ∧ t.payload.length = t.header.toNat % 2 ^ 12)
      (.abs t.payload) (decode t) := by
  rw [decode_of_op_abs ((Header.op_eq_ofNat_iff (by decide)).mpr hop)]
  exact verdictDecidedBy_accept _ (by rw [beq_iff_eq, Header.dcap_eq_zero_iff, Header.len_toNat])

theorem decode_abstop_decided (hop : t.header.toNat / 2 ^ 24 = 3) :
    VerdictDecidedBy t.HasNoOperand .abstop (decode t) := by
  rw [decode_of_op_abstop ((Header.op_eq_ofNat_iff (by decide)).mpr hop)]
  exact verdictDecidedBy_accept _ Transaction.hasNoOperand_iff

theorem decode_drip_decided (hop : t.header.toNat / 2 ^ 24 = 4) :
    VerdictDecidedBy t.HasNoOperand .drip (decode t) := by
  rw [decode_of_op_drip ((Header.op_eq_ofNat_iff (by decide)).mpr hop)]
  exact verdictDecidedBy_accept _ Transaction.hasNoOperand_iff

theorem decode_sqz_decided (hop : t.header.toNat / 2 ^ 24 = 5) :
    VerdictDecidedBy (t.header.toNat / 2 ^ 12 % 2 ^ 12 = 0 ∧ t.payload.length = 0)
      (.sqz (t.header.toNat % 2 ^ 12)) (decode t) := by
  rw [decode_of_op_sqz ((Header.op_eq_ofNat_iff (by decide)).mpr hop), ← Header.len_toNat]
  exact verdictDecidedBy_accept _ (by rw [beq_iff_eq, Header.dcap_eq_zero_iff])

theorem decode_xorks_decided (hop : t.header.toNat / 2 ^ 24 = 6) :
    VerdictDecidedBy (t.payload.length = t.header.toNat % 2 ^ 12)
      (.xorks (t.header.toNat / 2 ^ 12 % 2 ^ 12) t.payload) (decode t) := by
  rw [decode_of_op_xorks ((Header.op_eq_ofNat_iff (by decide)).mpr hop), ← Header.dcap_toNat, ← Header.len_toNat]
  exact verdictDecidedBy_accept _ (by rw [eq_self, true_and])

/-- R53: an `op` of none of the six rows. -/
theorem decode_reserved (hop : t.header.toNat / 2 ^ 24 ∉ [1, 2, 3, 4, 5, 6]) :
    decode t = .error .reservedOpcode := by
  refine decode_of_op_reserved fun hmem => hop ?_
  rw [← Header.op_toNat]
  exact List.mem_map_of_mem (f := BitVec.toNat) hmem

end

/-- Settles O3: each row's `op` picks the arm its other conditions decide, and an `op` of no row is reserved. -/
theorem decodeIsTheDecisionList : Obligations.DecodeIsTheDecisionList := by
  intro t op dcap len n
  refine ⟨fun ⟨hop, hc⟩ => (decode_rst_decided hop).accepts hc, fun ⟨hop, hc⟩ => (decode_abs_decided hop).accepts hc,
    fun ⟨hop, hc⟩ => (decode_abstop_decided hop).accepts hc, fun ⟨hop, hc⟩ => (decode_drip_decided hop).accepts hc,
    fun ⟨hop, hc⟩ => (decode_sqz_decided hop).accepts hc, fun ⟨hop, hc⟩ => (decode_xorks_decided hop).accepts hc,
    fun ⟨hrst, habs, habstop, hdrip, hsqz, hxorks⟩ => ?reject⟩
  case reject =>
    by_cases h1 : op = 1
    · exact (decode_rst_decided h1).rejects fun hc => hrst ⟨h1, hc⟩
    by_cases h2 : op = 2
    · exact (decode_abs_decided h2).rejects fun hc => habs ⟨h2, hc⟩
    by_cases h3 : op = 3
    · exact (decode_abstop_decided h3).rejects fun hc => habstop ⟨h3, hc⟩
    by_cases h4 : op = 4
    · exact (decode_drip_decided h4).rejects fun hc => hdrip ⟨h4, hc⟩
    by_cases h5 : op = 5
    · exact (decode_sqz_decided h5).rejects fun hc => hsqz ⟨h5, hc⟩
    by_cases h6 : op = 6
    · exact (decode_xorks_decided h6).rejects fun hc => hxorks ⟨h6, hc⟩
    have hreserved : op ∉ [1, 2, 3, 4, 5, 6] := by
      simp only [List.mem_cons, List.not_mem_nil, or_false, not_or]
      exact ⟨h1, h2, h3, h4, h5, h6⟩
    exact ⟨_, decode_reserved hreserved⟩

end Sys2Proof
end

section
/-! # R48: the match / mask patterns

A header is its three fields, and the bitwise AND of two headers is the AND of their fields; so a pattern compares the header's
masked fields with the fields of its value. Every mask of the table keeps the whole of `op`, and the six values have six
opcodes: that is why no header has two patterns. -/

namespace Sys2Proof

theorem Header.eq_iff_fields {h k : Header} :
    h = k ↔ Header.op h = Header.op k ∧ Header.dcap h = Header.dcap k ∧ Header.len h = Header.len k := by
  refine ⟨fun e => e ▸ ⟨rfl, rfl, rfl⟩, fun ⟨hop, hdcap, hlen⟩ => BitVec.eq_of_toNat_eq ?_⟩
  rw [← BitVec.toNat_inj, Header.op_toNat, Header.op_toNat] at hop
  rw [← BitVec.toNat_inj, Header.dcap_toNat, Header.dcap_toNat] at hdcap
  rw [← BitVec.toNat_inj, Header.len_toNat, Header.len_toNat] at hlen
  omega

theorem Header.op_and (h k : Header) : Header.op (h &&& k) = Header.op h &&& Header.op k :=
  BitVec.extractLsb'_and

theorem Header.dcap_and (h k : Header) : Header.dcap (h &&& k) = Header.dcap h &&& Header.dcap k :=
  BitVec.extractLsb'_and

theorem Header.len_and (h k : Header) : Header.len (h &&& k) = Header.len h &&& Header.len k :=
  BitVec.extractLsb'_and

namespace Pattern
variable {p : Pattern} {h : Header}

/-- A pattern compares the header's masked fields with the fields of its value. -/
theorem matchesHeader_iff_fields :
    p.matchesHeader h = true ↔
      Header.op h &&& Header.op p.mask = Header.op p.value ∧
      Header.dcap h &&& Header.dcap p.mask = Header.dcap p.value ∧
      Header.len h &&& Header.len p.mask = Header.len p.value := by
  rw [matchesHeader, beq_iff_eq, Header.eq_iff_fields, Header.op_and, Header.dcap_and, Header.len_and]

/-- A pattern whose mask keeps all of `op` fixes the header's `op`. -/
theorem op_of_matchesHeader (hmask : Header.op p.mask = BitVec.allOnes 8) (h' : p.matchesHeader h = true) :
    Header.op h = Header.op p.value := by
  obtain ⟨hop, -, -⟩ := matchesHeader_iff_fields.mp h'
  rwa [hmask, BitVec.and_allOnes] at hop

/-- The mask of `RST`, `ABSTOP` and `DRIP` keeps every field. -/
theorem matchesHeader_of_mask_all (hmask : p.mask = 0xFFFFFFFF) :
    p.matchesHeader h = true ↔
      Header.op h = Header.op p.value ∧ Header.dcap h = Header.dcap p.value ∧ Header.len h = Header.len p.value := by
  have hfields : Header.op 0xFFFFFFFF = BitVec.allOnes 8 ∧ Header.dcap 0xFFFFFFFF = BitVec.allOnes 12 ∧
      Header.len 0xFFFFFFFF = BitVec.allOnes 12 := by decide
  obtain ⟨hop, hdcap, hlen⟩ := hfields
  rw [matchesHeader_iff_fields, hmask, hop, hdcap, hlen, BitVec.and_allOnes, BitVec.and_allOnes, BitVec.and_allOnes]

/-- The mask of `ABS` and `SQZ` leaves out `len`. -/
theorem matchesHeader_of_mask_op_dcap (hmask : p.mask = 0xFFFFF000) (hvalue : Header.len p.value = 0) :
    p.matchesHeader h = true ↔ Header.op h = Header.op p.value ∧ Header.dcap h = Header.dcap p.value := by
  have hfields : Header.op 0xFFFFF000 = BitVec.allOnes 8 ∧ Header.dcap 0xFFFFF000 = BitVec.allOnes 12 ∧
      Header.len 0xFFFFF000 = 0 := by decide
  obtain ⟨hop, hdcap, hlen⟩ := hfields
  rw [matchesHeader_iff_fields, hmask, hop, hdcap, hlen, hvalue, BitVec.and_allOnes, BitVec.and_allOnes]
  simp

/-- The mask of `XORKS` keeps `op` alone. -/
theorem matchesHeader_of_mask_op (hmask : p.mask = 0xFF000000) (hdcapValue : Header.dcap p.value = 0)
    (hlenValue : Header.len p.value = 0) :
    p.matchesHeader h = true ↔ Header.op h = Header.op p.value := by
  have hfields : Header.op 0xFF000000 = BitVec.allOnes 8 ∧ Header.dcap 0xFF000000 = 0 ∧
      Header.len 0xFF000000 = 0 := by decide
  obtain ⟨hop, hdcap, hlen⟩ := hfields
  rw [matchesHeader_iff_fields, hmask, hop, hdcap, hlen, hdcapValue, hlenValue, BitVec.and_allOnes]
  simp

end Pattern

/-- R48: the headers with one of the six patterns are those the table of fields calls legal. -/
theorem Header.legal_iff_fields {h : Header} : Header.legal h = true ↔
    (Header.op h = 0x01 ∧ Header.dcap h = 0 ∧ Header.len h = 0) ∨
    (Header.op h = 0x02 ∧ Header.dcap h = 0) ∨
    (Header.op h = 0x03 ∧ Header.dcap h = 0 ∧ Header.len h = 0) ∨
    (Header.op h = 0x04 ∧ Header.dcap h = 0 ∧ Header.len h = 0) ∨
    (Header.op h = 0x05 ∧ Header.dcap h = 0) ∨
    Header.op h = 0x06 := by
  simp only [Header.legal, opcodeTable, List.any_cons, List.any_nil, Bool.or_eq_true, Bool.or_false]
  exact or_congr (Pattern.matchesHeader_of_mask_all rfl) <|
    or_congr (Pattern.matchesHeader_of_mask_op_dcap rfl rfl) <|
    or_congr (Pattern.matchesHeader_of_mask_all rfl) <|
    or_congr (Pattern.matchesHeader_of_mask_all rfl) <|
    or_congr (Pattern.matchesHeader_of_mask_op_dcap rfl rfl) <|
    Pattern.matchesHeader_of_mask_op rfl rfl rfl

/-- R48: every mask of the table keeps the whole of `op`. -/
theorem opcodeTable_masks_keep_op : ∀ p ∈ opcodeTable, Header.op p.mask = BitVec.allOnes 8 := by decide

/-- R47: no two rows of the table have the same opcode. -/
theorem opcodeTable_opcodes_differ :
    opcodeTable.Pairwise fun p r => Header.op p.value ≠ Header.op r.value := by decide

theorem opcodeTable_patterns_disjoint :
    opcodeTable.Pairwise fun p r => ∀ h, ¬ (p.matchesHeader h = true ∧ r.matchesHeader h = true) :=
  opcodeTable_opcodes_differ.imp_of_mem fun hp hr hdiffer _ ⟨hmatchp, hmatchr⟩ =>
    hdiffer <| (Pattern.op_of_matchesHeader (opcodeTable_masks_keep_op _ hp) hmatchp).symm.trans
      (Pattern.op_of_matchesHeader (opcodeTable_masks_keep_op _ hr) hmatchr)

/-- Settles O4: row by row a pattern is the table's condition on the fields, and the rows differ in `op`. -/
theorem legalHeadersAreSixDisjointPatterns : Obligations.LegalHeadersAreSixDisjointPatterns :=
  ⟨fun _ => Header.legal_iff_fields, opcodeTable_patterns_disjoint⟩

end Sys2Proof
end

section
/-! # R51: the length of the output

The response of a command has the length of R47 or, with a status other than `OK`, no byte; refusal, completion and fault entry
each leave such a response, and every answer to a transaction is one of these. -/

namespace Sys2Proof

/-- R47: the bytes of `out` when the command is answered `OK`. -/
def Instr.outLength : Instr → Nat
  | .rst => 0
  | .abs _ => 0
  | .abstop => 0
  | .drip => 1
  | .sqz n => n
  | .xorks _ src => src.length

namespace Machine

/-- R51: the state holds a response whose output has `n` bytes with status `OK` and none with every other status. -/
def State.AnswersWithLength (n : Nat) (t : State) : Prop :=
  ∃ r, t.response = some r ∧ (r.status = .ok → r.out.length = n) ∧ (r.status ≠ .ok → r.out = [])

variable (s : State) (n : Nat)

theorem State.complete_answersWithLength (q : Sponge) {out : List Byte} (h : out.length = n) :
    (s.complete q out).AnswersWithLength n :=
  ⟨_, s.complete_response q out, fun _ => h, fun hstatus => absurd rfl hstatus⟩

/-- R51: an answer without a byte and with a status other than `OK` meets every length. -/
theorem State.answersWithLength_of_response {t : State} {e : Status} (ht : t.response = some ⟨e, []⟩) (he : e ≠ .ok) :
    t.AnswersWithLength n :=
  ⟨_, ht, fun hok => absurd hok he, fun _ => rfl⟩

theorem State.refuse_answersWithLength : s.refuse.AnswersWithLength n :=
  State.answersWithLength_of_response n s.refuse_response nofun

theorem State.faultEntry_answersWithLength {e : Status} (he : e ≠ .ok) : (s.faultEntry e).AnswersWithLength n :=
  State.answersWithLength_of_response n (s.faultEntry_response e) he

variable {s}

/-- R51: a command that answers a next state answers with its length of R47. -/
theorem exec_answersWithLength {i : Instr} {t : State} (ht : exec i s = .next t) :
    t.AnswersWithLength i.outLength := by
  obtain ⟨rfl, rfl⟩ | ⟨-, -, rfl⟩ | ⟨-, rfl, rfl⟩ | ⟨-, -, data, rfl, -, rfl⟩ | ⟨-, -, rfl, rfl⟩ | ⟨-, -, rfl, rfl⟩ |
    ⟨-, -, n, rfl, rfl⟩ | ⟨-, dcap, src, -, -, rfl⟩ | ⟨-, -, dcap, src, rfl, -, rfl⟩ := exec_next_cases ht
  · exact s.clear.complete_answersWithLength _ _ rfl
  · exact s.refuse_answersWithLength _
  · exact s.complete_answersWithLength _ _ rfl
  · exact s.complete_answersWithLength _ _ rfl
  · exact s.complete_answersWithLength _ _ rfl
  · exact s.complete_answersWithLength _ _ rfl
  · exact s.complete_answersWithLength _ _ (dripSteps_length _ n)
  · exact s.faultEntry_answersWithLength _ nofun
  · exact s.complete_answersWithLength _ _ (xorSteps_length _ src)

/-- R122, R123: a transaction that decodes to ILLEGAL is answered with a status other than `OK` and no byte. -/
theorem execIllegal_response {t : State} (ht : execIllegal s = .next t) :
    ∃ e, e ≠ .ok ∧ t.response = some ⟨e, []⟩ := by
  cases hF : s.FLT with
  | true =>
    rw [execIllegal, gate_of_faulted hF] at ht
    cases ht
    exact ⟨.eFaulted, nofun, s.refuse_response⟩
  | false =>
    rw [execIllegal, gate_of_clear hF] at ht
    cases ht
    exact ⟨.eIllegal, nofun, s.faultEntry_response _⟩

/-- R124: a transaction that decodes runs its command. -/
theorem transact_of_ok {tr : Transaction} {i : Instr} (h : decode tr = .ok i) : transact tr s = exec i s := by
  simp only [transact, h]

/-- R122: a transaction that does not decode is ILLEGAL, whatever the reason. -/
theorem transact_of_error {tr : Transaction} {e : Illegal} (h : decode tr = .error e) :
    transact tr s = execIllegal s := by
  simp only [transact, h]

/-- Settles O10: a decoded command answers with its length, a rejected transaction with no byte. -/
theorem outputHasTheTableLength : Obligations.OutputHasTheTableLength := by
  intro s u t rest hinput hu
  rw [step_of_cons hinput] at hu
  cases hdecode : decode t with
  | ok i =>
    have hexec : exec i { s with input := rest } = .next u := (transact_of_ok hdecode).symm.trans hu
    obtain ⟨r, hr, hok, hother⟩ := exec_answersWithLength hexec
    exact ⟨r, hr, fun hstatus => ⟨i, rfl, (hok hstatus).trans (by cases i <;> rfl)⟩, hother⟩
  | error e =>
    have hillegal : execIllegal { s with input := rest } = .next u := (transact_of_error hdecode).symm.trans hu
    obtain ⟨e, he, hr⟩ := execIllegal_response hillegal
    exact ⟨_, hr, fun hstatus => absurd hstatus he, fun _ => rfl⟩

end Machine
end Sys2Proof
end

section
/-! # R65: the `RST` command

A transaction without operand is fixed by its opcode, so the one that decodes to `RST` is its encoding; and `RST` ends in the
reset sponge with `FLT` clear, whatever the state. -/

namespace Sys2Proof

/-- R46, R59: with no capacity, no length and no payload, the opcode is all that a transaction holds. -/
theorem Transaction.HasNoOperand.eq_mkHeader {t : Transaction} (h : t.HasNoOperand) {k : Nat}
    (hop : t.header.toNat / 2 ^ 24 = k) : t = ⟨mkHeader k 0 0, []⟩ := by
  obtain ⟨hdcap, hlen, hpayload⟩ := h
  have hk : k < 256 := by have := t.header.isLt; omega
  have hheader : t.header = mkHeader k 0 0 := by
    apply BitVec.eq_of_toNat_eq
    rw [mkHeader_toNat hk (by omega) (by omega)]
    omega
  calc t = ⟨t.header, t.payload⟩ := rfl
    _ = ⟨mkHeader k 0 0, []⟩ := by rw [hheader, List.eq_nil_of_length_eq_zero hpayload]

/-- R65: a transaction with the opcode of `RST` that is not the encoding of `RST` is rejected. -/
theorem decode_error_of_op_rst {t : Transaction} (hop : Header.op t.header = 0x01) (hne : t ≠ encode .rst) :
    ∃ e, decode t = .error e := by
  have hop' : t.header.toNat / 2 ^ 24 = 1 := (Header.op_eq_ofNat_iff (by decide)).mp hop
  exact (decode_rst_decided hop').rejects fun h => hne (h.eq_mkHeader hop')

theorem encode_rst : encode .rst = ⟨0x01000000, []⟩ := rfl

namespace Machine

/-- Settles O12: what has no operand is fixed by its opcode, and the laws of `clear` and `complete` give every field. -/
theorem rstCompletesInEveryState : Obligations.RstCompletesInEveryState := by
  refine ⟨encode_rst, fun t hop hne => decode_error_of_op_rst hop hne, fun s => ⟨_, exec_rst s, ?_⟩⟩
  rw [State.complete_sponge, State.complete_FLT, State.complete_response, State.complete_input, State.clear_FLT,
    State.clear_input]
  exact ⟨Sponge.reset_read, rfl, rfl, rfl, rfl, rfl, rfl, rfl, rfl, rfl⟩

end Machine
end Sys2Proof
end

section
/-! # R70: AbsorbNibble

Every field of the result is given by the sponge after the Shuffle that falls due at `A = 128` (`shuffleIfFull`): the array by
one swap, the counter by one increment. -/

namespace Sys2Proof.Machine

/-- R70, R84: on the absorb side a Shuffle runs exactly when the counter is 128. -/
theorem shuffleIfFull_eq_ite (q : Sponge) : shuffleIfFull q = if q.A = 128 then shuffle q else q := by
  rw [shuffleIfFull, Config.H]

section
variable (q : Sponge) (v : Nibble)

theorem absorbNibble_S :
    (absorbNibble q v).S = (shuffleIfFull q).S.swap (shuffleIfFull q).A (absorbTarget v) := by
  rw [absorbNibble, Sponge.setA_S, Sponge.setS_S]

@[simp] theorem absorbNibble_I : (absorbNibble q v).I = (shuffleIfFull q).I := by simp [absorbNibble]
@[simp] theorem absorbNibble_J : (absorbNibble q v).J = (shuffleIfFull q).J := by simp [absorbNibble]
@[simp] theorem absorbNibble_K : (absorbNibble q v).K = (shuffleIfFull q).K := by simp [absorbNibble]
@[simp] theorem absorbNibble_W : (absorbNibble q v).W = (shuffleIfFull q).W := by simp [absorbNibble]
@[simp] theorem absorbNibble_A : (absorbNibble q v).A = (shuffleIfFull q).A + 1 := by simp [absorbNibble]

end

/-- R16: the increment of an absorb step does not wrap. -/
theorem shuffleIfFull_A_succ_toNat {q : Sponge} (h : q.A ≤ 128) :
    ((shuffleIfFull q).A + 1).toNat = (shuffleIfFull q).A.toNat + 1 := by
  have hlt := shuffleIfFull_A_lt h
  rw [BitVec.toNat_add, show (1 : Byte).toNat = 1 from rfl]
  omega

/-- R15, R16: right after a nibble the counter is in 1..128. -/
theorem absorbNibble_A_bounds {q : Sponge} (h : q.A ≤ 128) (v : Nibble) :
    1 ≤ (absorbNibble q v).A.toNat ∧ (absorbNibble q v).A.toNat ≤ 128 := by
  have hlt := shuffleIfFull_A_lt h
  rw [absorbNibble_A, shuffleIfFull_A_succ_toNat h]
  omega

/-- Settles O14: the array is the due Shuffle's after one swap, and the counter is below 128 before its increment. -/
theorem absorbNibbleSwapsAndCounts : Obligations.AbsorbNibbleSwapsAndCounts := by
  intro q v hA
  rw [← shuffleIfFull_eq_ite]
  intro p r
  have hS : r.S = p.S.swap p.A (128 + v.setWidth 8) := absorbNibble_S q v
  obtain ⟨hpos, hle⟩ := absorbNibble_A_bounds hA v
  refine ⟨?counterCell, ?targetCell, fun x hcounter htarget => ?otherCells, absorbNibble_A q v, absorbNibble_I q v,
    absorbNibble_J q v, absorbNibble_K q v, absorbNibble_W q v, absorbNibble_Z q v, hpos, hle⟩
  case counterCell => rw [hS, Memory.read_swap_left]
  case targetCell => rw [hS, Memory.read_swap_right]
  case otherCells => rw [hS, Memory.read_swap_other _ hcounter htarget]

end Sys2Proof.Machine
end

section
/-! # R71 to R74: the commands `ABS` and `ABSTOP`

Each is refused with `FLT = 1`; with `FLT = 0` it completes with the sponge of `absorb` or `absorbStop`, where its rule can read
`A`. -/

namespace Sys2Proof

theorem encode_abs (data : List Byte) : encode (.abs data) = ⟨BitVec.ofNat 32 (0x02000000 + data.length), data⟩ := rfl

theorem encode_abstop : encode .abstop = ⟨0x03000000, []⟩ := rfl

namespace Machine

/-- R123: with `FLT = 1` every command but `RST` is refused. -/
theorem exec_of_faulted {i : Instr} {s : State} (hi : i ≠ .rst) (h : s.FLT = true) : exec i s = .next s.refuse := by
  cases i with
  | rst => exact absurd rfl hi
  | abs | abstop | drip | sqz | xorks => exact gate_of_faulted h _

/-! ## `ABS` -/

/-- R73: `ABS` of nothing completes with the sponge as it is, whatever `A` is. -/
theorem exec_abs_nil {s : State} (hF : s.FLT = false) : exec (.abs []) s = .next (s.complete s.sponge []) :=
  gate_of_clear hF _

/-- R72: with `FLT = 0`, and `A` legal where there is a byte to absorb, `ABS` completes. -/
theorem exec_abs_of_clear {s : State} {data : List Byte} (hF : s.FLT = false) (hA : data = [] ∨ s.sponge.A ≤ 128) :
    exec (.abs data) s = .next (s.complete (absorb s.sponge data) []) := by
  by_cases hdata : data = []
  · subst hdata
    exact exec_abs_nil hF
  · rw [exec, execAbs, gate_of_clear hF, if_neg hdata, withLegalA_of_le (hA.resolve_left hdata)]

theorem lowNibble_eq_mod (b : Byte) : lowNibble b = BitVec.ofNat 4 (b.toNat % 16) := by
  apply BitVec.eq_of_toNat_eq
  simp [lowNibble]

theorem highNibble_eq_div (b : Byte) : highNibble b = BitVec.ofNat 4 (b.toNat / 16) := by
  apply BitVec.eq_of_toNat_eq
  simp [highNibble, Nat.shiftRight_eq_div_pow]

/-- R71: AbsorbByte by the arithmetic of the nibbles. -/
theorem absorbByte_eq_mod_div (q : Sponge) (b : Byte) :
    absorbByte q b =
      absorbNibble (absorbNibble q (BitVec.ofNat 4 (b.toNat % 16))) (BitVec.ofNat 4 (b.toNat / 16)) := by
  rw [absorbByte, lowNibble_eq_mod, highNibble_eq_div]

/-- R71, R72: absorbing bytes is absorbing their nibbles in order, the low one of each byte first. -/
theorem absorb_eq_foldl_absorbNibble (q : Sponge) (data : List Byte) :
    absorb q data =
      (data.flatMap fun b => [BitVec.ofNat 4 (b.toNat % 16), BitVec.ofNat 4 (b.toNat / 16)]).foldl absorbNibble q := by
  simp only [absorb, List.foldl_flatMap, List.foldl_cons, List.foldl_nil, ← absorbByte_eq_mod_div]

/-- Settles O15: `ABS` completes with the fold of AbsorbByte, which is the fold of AbsorbNibble over the nibbles. -/
theorem absAbsorbsLowNibbleFirst : Obligations.AbsAbsorbsLowNibbleFirst := by
  refine ⟨encode_abs, fun s data hF => exec_of_faulted nofun hF, fun s data hF hA => ?completes⟩
  case completes =>
    exact ⟨s.complete (absorb s.sponge data) [], exec_abs_of_clear hF hA,
      by rw [State.complete_sponge, absorb_eq_foldl_absorbNibble], by rw [State.complete_FLT, hF],
      State.complete_response .., State.complete_input ..⟩

/-- Settles O16: the header has opcode 2 and length 0, and absorbing nothing completes before `A` is checked. -/
theorem absOfNothingChangesNothing : Obligations.AbsOfNothingChangesNothing :=
  ⟨by decide, fun _ hF => exec_abs_nil hF⟩

/-! ## `ABSTOP` -/

/-- R74: with `FLT = 0` and `A` legal, `ABSTOP` completes. -/
theorem exec_abstop_of_clear {s : State} (hF : s.FLT = false) (hA : s.sponge.A ≤ 128) :
    exec .abstop s = .next (s.complete (absorbStop s.sponge) []) := by
  rw [exec, execAbstop, gate_of_clear hF, withLegalA_of_le hA]

theorem absorbStop_of_ne {q : Sponge} (h : q.A ≠ 128) : absorbStop q = q.setA (q.A + 1) := by
  rw [absorbStop, shuffleIfFull_of_ne h]

theorem absorbStop_of_eq {q : Sponge} (h : q.A = 128) : absorbStop q = (shuffle q).setA 1 := by
  rw [absorbStop, shuffleIfFull_of_eq h, shuffle_A, zero_add]

/-- Settles O20: `ABSTOP` completes with `absorbStop`, the increment alone or the increment after a Shuffle. -/
theorem abstopCountsWithoutSwap : Obligations.AbstopCountsWithoutSwap := by
  refine ⟨encode_abstop, fun s hF => exec_of_faulted nofun hF, fun s hF hA => ?completes⟩
  case completes =>
    refine ⟨s.complete (absorbStop s.sponge) [], exec_abstop_of_clear hF hA, ?_⟩
    rw [State.complete_sponge, State.complete_FLT, State.complete_response, State.complete_input]
    exact ⟨absorbStop_of_ne, absorbStop_of_eq, hF, rfl, rfl⟩

end Machine
end Sys2Proof
end

section
/-! # R80, R81, R83: Update, Whip and Shuffle field by field

Update writes the three registers and swaps the two cells they name; Whip and Shuffle are given by the steps they run, except
that `I` comes back because the 512 strides of a Whip add up to a multiple of 256. -/

namespace Sys2Proof.Machine

/-- Settles O22: the laws of Update give the registers, and the laws of the swap of cells `I` and `J` give the array. -/
theorem updateIsTheFourLines : Obligations.UpdateIsTheFourLines := by
  intro q i j k r
  have hI : r.I = i := update_I q
  have hJ : r.J = j := update_J q
  have hS : r.S = q.S.swap i j := by rw [← hI, ← hJ]; exact update_S q
  refine ⟨hI, hJ, ?K, ?cellI, ?cellJ, fun x hi hj => ?otherCells, update_W q, update_Z q, update_A q⟩
  case K => exact (update_K q).trans (by rw [hJ])
  case cellI => rw [hS, Memory.read_swap_left]
  case cellJ => rw [hS, Memory.read_swap_right]
  case otherCells => rw [hS, Memory.read_swap_other _ hi hj]

section
variable (q : Sponge)

theorem whip_S : (whip q).S = (update^[512] q).S := by rw [whip, Sponge.setW_S, Config.whipSteps]
theorem whip_J : (whip q).J = (update^[512] q).J := by rw [whip, Sponge.setW_J, Config.whipSteps]
theorem whip_K : (whip q).K = (update^[512] q).K := by rw [whip, Sponge.setW_K, Config.whipSteps]

/-- R81: the 512 strides of a Whip bring the pointer `I` back, modulo 256. -/
@[simp] theorem whip_I : (whip q).I = q.I := by
  have hsteps : BitVec.ofNat 8 Config.whipSteps = 0 := by decide
  rw [whip_I_eq, hsteps, zero_mul, add_zero]

theorem shuffle_S : (shuffle q).S = (whip (crush (whip (crush (whip q))))).S := by rw [shuffle, Sponge.setA_S]
theorem shuffle_J : (shuffle q).J = (whip (crush (whip (crush (whip q))))).J := by rw [shuffle, Sponge.setA_J]
theorem shuffle_K : (shuffle q).K = (whip (crush (whip (crush (whip q))))).K := by rw [shuffle, Sponge.setA_K]

@[simp] theorem shuffle_I : (shuffle q).I = q.I := by
  rw [shuffle, Sponge.setA_I, whip_I, crush_I, whip_I, crush_I, whip_I]

end

/-- Settles O23: the fields of Whip and Shuffle one by one, and the stride after any number of Updates. -/
theorem whipAndShuffleRunTheirSteps : Obligations.WhipAndShuffleRunTheirSteps :=
  ⟨fun q => ⟨whip_S q, whip_J q, whip_K q, whip_I q, whip_W q, whip_Z q, whip_A q, fun n => (iterate_update q n).1⟩,
    fun q => ⟨shuffle_S q, shuffle_J q, shuffle_K q, shuffle_I q, shuffle_W q, shuffle_Z q, shuffle_A q⟩⟩

end Sys2Proof.Machine
end

section
/-! # R82: Crush orders every pair

The pairs `(v, 255 - v)` are disjoint, so the loop of Crush does to the cells of pair `v` what its one step `crushPair · v` does,
and that step puts the smaller byte below. -/

namespace Sys2Proof.Machine

/-! ## The cells of a pair -/

theorem crushLow_toNat {v : Nat} (hv : v < 128) : (crushLow v).toNat = v := by
  rw [crushLow, BitVec.toNat_ofNat]
  omega

theorem crushHigh_toNat {v : Nat} (hv : v < 128) : (crushHigh v).toNat = 255 - v := by
  have hlow : (BitVec.ofNat 8 v).toNat = v := crushLow_toNat hv
  have h255 : (255 : Byte).toNat = 255 := rfl
  rw [crushHigh, BitVec.toNat_sub, hlow, h255]
  omega

theorem crushLow_of_toNat (v : Byte) : crushLow v.toNat = v := by
  rw [crushLow, BitVec.ofNat_toNat, BitVec.setWidth_eq]

theorem crushHigh_of_toNat (v : Byte) : crushHigh v.toNat = 255 - v := by
  rw [crushHigh, BitVec.ofNat_toNat, BitVec.setWidth_eq]

/-- R35: the 128 pairs hold every cell. -/
theorem forall_cell_of_forall_pair {P : Byte → Prop} (h : ∀ v : Byte, v < 128 → P v ∧ P (255 - v)) (x : Byte) : P x := by
  by_cases hx : x < 128
  · exact (h x hx).1
  · have hcell : 255 - (255 - x) = x := by bv_omega
    have hlow : 255 - x < 128 := by bv_omega
    exact hcell ▸ (h (255 - x) hlow).2

/-! ## One step of the loop -/

section
variable (m : Memory) (v : Nat)

theorem crushPair_read_low :
    (crushPair m v).read (crushLow v) =
      if m.read (crushLow v) > m.read (crushHigh v) then m.read (crushHigh v) else m.read (crushLow v) := by
  unfold crushPair
  split
  · exact m.read_swap_left ..
  · rfl

theorem crushPair_read_high :
    (crushPair m v).read (crushHigh v) =
      if m.read (crushLow v) > m.read (crushHigh v) then m.read (crushLow v) else m.read (crushHigh v) := by
  unfold crushPair
  split
  · exact m.read_swap_right ..
  · rfl

theorem crushPair_read_other {x : Byte} (hv : v < 128) (hlow : x.toNat ≠ v) (hhigh : x.toNat ≠ 255 - v) :
    (crushPair m v).read x = m.read x := by
  rw [← crushLow_toNat hv] at hlow
  rw [← crushHigh_toNat hv] at hhigh
  unfold crushPair
  split
  · exact m.read_swap_other (ne_of_apply_ne _ hlow) (ne_of_apply_ne _ hhigh)
  · rfl

end

/-! ## The loop, seen from one pair -/

/-- The two arrays hold the same bytes in the two cells of pair `v`. -/
def Memory.SamePair (v : Nat) (m n : Memory) : Prop :=
  m.read (crushLow v) = n.read (crushLow v) ∧ m.read (crushHigh v) = n.read (crushHigh v)

theorem Memory.SamePair.trans {v : Nat} {m n p : Memory} (hmn : m.SamePair v n) (hnp : n.SamePair v p) : m.SamePair v p :=
  ⟨hmn.1.trans hnp.1, hmn.2.trans hnp.2⟩

/-- The step of pair `v` reads nothing but the pair's two cells. -/
theorem Memory.SamePair.crushPair {v : Nat} {m n : Memory} (h : m.SamePair v n) :
    (crushPair m v).SamePair v (crushPair n v) := by
  obtain ⟨hlow, hhigh⟩ := h
  constructor
  · rw [crushPair_read_low, crushPair_read_low, hlow, hhigh]
  · rw [crushPair_read_high, crushPair_read_high, hlow, hhigh]

/-- R35: the pairs are disjoint, so the step of one leaves the cells of another alone. -/
theorem crushPair_samePair_of_ne {v w : Nat} (hv : v < 128) (hw : w < 128) (hne : v ≠ w) (m : Memory) :
    (crushPair m w).SamePair v m := by
  constructor
  case left => exact crushPair_read_other m w hw (by rw [crushLow_toNat hv]; omega) (by rw [crushLow_toNat hv]; omega)
  case right => exact crushPair_read_other m w hw (by rw [crushHigh_toNat hv]; omega) (by rw [crushHigh_toNat hv]; omega)

theorem foldl_crushPair_samePair_of_notMem {v : Nat} (hv : v < 128) {vs : List Nat} (hvs : ∀ w ∈ vs, w < 128)
    (hmem : v ∉ vs) (m : Memory) : (vs.foldl crushPair m).SamePair v m := by
  induction vs generalizing m with
  | nil => exact ⟨rfl, rfl⟩
  | cons w vs ih =>
    obtain ⟨hw, hrest⟩ := List.forall_mem_cons.mp hvs
    obtain ⟨hne, hmem⟩ := List.ne_and_not_mem_of_not_mem_cons hmem
    exact (ih hrest hmem _).trans (crushPair_samePair_of_ne hv hw hne m)

/-- A loop that visits pair `v` once does to it what its step for `v` does: no step before or after touches the pair. -/
theorem foldl_crushPair_samePair_of_mem {v : Nat} (hv : v < 128) {vs : List Nat} (hvs : ∀ w ∈ vs, w < 128)
    (hnodup : vs.Nodup) (hmem : v ∈ vs) (m : Memory) : (vs.foldl crushPair m).SamePair v (crushPair m v) := by
  induction vs generalizing m with
  | nil => exact absurd hmem List.not_mem_nil
  | cons w vs ih =>
    obtain ⟨hw, hrest⟩ := List.forall_mem_cons.mp hvs
    obtain ⟨hnotMem, hnodup⟩ := List.nodup_cons.mp hnodup
    by_cases hvw : v = w
    · subst hvw
      exact foldl_crushPair_samePair_of_notMem hv hrest hnotMem _
    · exact (ih hrest hnodup (List.mem_of_ne_of_mem hvw hmem) _).trans (crushPair_samePair_of_ne hv hw hvw m).crushPair

theorem crushPairs_samePair {v : Nat} (hv : v < 128) (m : Memory) : (crushPairs m).SamePair v (crushPair m v) :=
  foldl_crushPair_samePair_of_mem hv (fun _ => List.mem_range.mp) List.nodup_range (List.mem_range.mpr hv) m

/-! ## Crush -/

section
variable (m : Memory) {v : Byte} (hv : v < 128)
include hv

theorem crushPairs_read_low :
    (crushPairs m).read v = if m.read v > m.read (255 - v) then m.read (255 - v) else m.read v := by
  obtain ⟨hlow, -⟩ := crushPairs_samePair hv m
  rwa [crushPair_read_low, crushLow_of_toNat, crushHigh_of_toNat] at hlow

theorem crushPairs_read_high :
    (crushPairs m).read (255 - v) = if m.read v > m.read (255 - v) then m.read v else m.read (255 - v) := by
  obtain ⟨-, hhigh⟩ := crushPairs_samePair hv m
  rwa [crushPair_read_high, crushLow_of_toNat, crushHigh_of_toNat] at hhigh

theorem crushPairs_ordered : (crushPairs m).read v ≤ (crushPairs m).read (255 - v) := by
  rw [crushPairs_read_low m hv, crushPairs_read_high m hv]
  split
  · next h => exact BitVec.le_of_lt h
  · next h => exact BitVec.not_lt.mp h

end

theorem crushPairs_idem (m : Memory) : ∀ x, (crushPairs (crushPairs m)).read x = (crushPairs m).read x := by
  apply forall_cell_of_forall_pair
  intro v hv
  have hordered := BitVec.not_lt.mpr (crushPairs_ordered m hv)
  exact ⟨by rw [crushPairs_read_low _ hv, if_neg hordered], by rw [crushPairs_read_high _ hv, if_neg hordered]⟩

/-- R82, R11: Crush keeps the permutation, in which the two cells of a pair hold different bytes. -/
theorem crush_strictly_ordered {q : Sponge} (hq : q.S.IsPermutation) {v : Byte} (hv : v < 128) :
    (crush q).S.read v < (crush q).S.read (255 - v) := by
  have hcells : v ≠ 255 - v := by bv_omega
  have hbytes : (crush q).S.read v ≠ (crush q).S.read (255 - v) := fun h =>
    hcells ((crush_keeps q keptBySwap_isPermutation hq).injective h)
  have hle : (crush q).S.read v ≤ (crush q).S.read (255 - v) := by
    rw [crush_S]
    exact crushPairs_ordered q.S hv
  exact BitVec.lt_of_le_ne hle hbytes

/-- Settles O25: the loop does to each pair what the pair's own step does, and a pair in order stays as it is. -/
theorem crushOrdersEveryPair : Obligations.CrushOrdersEveryPair := by
  intro q
  refine ⟨fun v hv => ?ordered, ⟨crush_I q, crush_J q, crush_K q, crush_W q, crush_Z q, crush_A q⟩, fun x => ?idem,
    fun hq v hv => crush_strictly_ordered hq hv⟩
  case ordered =>
    rw [crush_S]
    exact ⟨crushPairs_read_low q.S hv, crushPairs_read_high q.S hv⟩
  case idem =>
    rw [crush_S, crush_S]
    exact crushPairs_idem q.S x

end Sys2Proof.Machine
end

section
/-! # R90 to R93: the commands `DRIP` and `SQZ`

Each is refused with `FLT = 1`; with `FLT = 0` and `A` legal it completes with the output steps run from the sponge after the
shuffle-if-pending check. A DripStep has the array and the registers of one Update, and `Z` read from them. -/

namespace Sys2Proof

theorem encode_drip : encode .drip = ⟨0x04000000, []⟩ := rfl

theorem encode_sqz (n : Nat) : encode (.sqz n) = ⟨BitVec.ofNat 32 (0x05000000 + n), []⟩ := rfl

namespace Machine

/-! ## Output steps -/

section
variable (q : Sponge)

theorem output_Z : (output q).Z = q.S.read (q.J + q.S.read (q.I + q.S.read (q.Z + q.K))) := by
  rw [output, Sponge.setZ_Z]

theorem dripStep_S : (dripStep q).S = (update q).S := by rw [dripStep, output_S]
theorem dripStep_I : (dripStep q).I = (update q).I := by rw [dripStep, output_I]
theorem dripStep_J : (dripStep q).J = (update q).J := by rw [dripStep, output_J]
theorem dripStep_K : (dripStep q).K = (update q).K := by rw [dripStep, output_K]

/-- R91: the Output reads the array and the registers the Update has left, and the old `Z`. -/
theorem dripStep_Z :
    (dripStep q).Z = (dripStep q).S.read
      ((dripStep q).J + (dripStep q).S.read ((dripStep q).I + (dripStep q).S.read (q.Z + (dripStep q).K))) := by
  rw [dripStep_S, dripStep_I, dripStep_J, dripStep_K, dripStep, output_Z, update_Z]

/-- R93: the sponge after `n` DripSteps, and the `Z` after each of them in order. -/
theorem dripSteps_eq_iterate (n : Nat) :
    dripSteps n q = (dripStep^[n] q, (List.range n).map fun p => (dripStep^[p + 1] q).Z) := by
  induction n generalizing q with
  | zero => rfl
  | succ n ih =>
    rw [dripSteps, ih, List.range_succ_eq_map, List.map_cons, List.map_map]
    rfl

end

/-! ## `DRIP` -/

section
variable {s : State}

/-- R92: with `FLT = 0` and `A` legal, `DRIP` completes. -/
theorem exec_drip_of_clear (hF : s.FLT = false) (hA : s.sponge.A ≤ 128) :
    exec .drip s = .next (s.complete (dripStep (shuffleIfPending s.sponge)) [(dripStep (shuffleIfPending s.sponge)).Z]) := by
  rw [exec, execDrip, gate_of_clear hF, withLegalA_of_le hA]

/-- R92: run from another sponge, `DRIP` ends in a state that differs from `s` by its completion alone. -/
theorem exec_drip_with_sponge {q : Sponge} (hF : s.FLT = false) (hA : q.A ≤ 128) :
    exec .drip { s with sponge := q } =
      .next (s.complete (dripStep (shuffleIfPending q)) [(dripStep (shuffleIfPending q)).Z]) :=
  exec_drip_of_clear (s := { s with sponge := q }) hF hA

/-- R92: a `DRIP` with absorbed nibbles pending is the `DRIP` of the shuffled sponge, where nothing is pending. -/
theorem exec_drip_of_pending (hF : s.FLT = false) (hA : s.sponge.A ≤ 128) (hpending : s.sponge.A > 0) :
    exec .drip s = exec .drip { s with sponge := shuffle s.sponge } := by
  have hA' : (shuffle s.sponge).A ≤ 128 := by rw [shuffle_A]; decide
  rw [exec_drip_of_clear hF hA, exec_drip_with_sponge hF hA', shuffleIfPending_of_pos hpending,
    shuffleIfPending_of_zero (shuffle_A _)]

end

/-- Settles O26: the fields of the DripStep are those of Update, but for `Z`; a pending Shuffle comes first. -/
theorem dripRunsOneUpdateAndOneOutput : Obligations.DripRunsOneUpdateAndOneOutput := by
  refine ⟨encode_drip, fun s hF => exec_of_faulted nofun hF, fun s hF hA =>
    ⟨fun hpending => ?pending, fun hzero => ?clear⟩⟩
  case pending =>
    refine ⟨exec_drip_of_pending hF hA hpending, shuffle_A _, _, exec_drip_of_clear hF hA, ?_⟩
    rw [State.complete_sponge, dripStep_A, shuffleIfPending_A]
  case clear =>
    intro q i j k
    obtain ⟨hI, hJ, hK, hcellI, hcellJ, hother, -⟩ := updateIsTheFourLines q
    rw [← dripStep_I] at hI; rw [← dripStep_J] at hJ; rw [← dripStep_K] at hK
    rw [← dripStep_S] at hcellI hcellJ hother
    have hZ := dripStep_Z q
    rw [hI, hJ, hK] at hZ
    refine ⟨_, exec_drip_of_clear hF hA, ?_⟩
    rw [shuffleIfPending_of_zero hzero, State.complete_sponge, State.complete_FLT, State.complete_response,
      State.complete_input]
    exact ⟨hI, hJ, hK, dripStep_W q, (dripStep_A q).trans hzero, hcellI, hcellJ, hother, hZ, rfl, hF, rfl⟩

/-! ## `SQZ` -/

/-- R93: with `FLT = 0` and `A` legal, `SQZ` completes. -/
theorem exec_sqz_of_clear {s : State} (n : Nat) (hF : s.FLT = false) (hA : s.sponge.A ≤ 128) :
    exec (.sqz n) s =
      .next (s.complete (dripSteps n (shuffleIfPending s.sponge)).1 (dripSteps n (shuffleIfPending s.sponge)).2) := by
  rw [exec, execSqz, gate_of_clear hF, withLegalA_of_le hA]

/-- Settles O27: one shuffle-if-pending check, then the steps and their bytes as the iterates of DripStep. -/
theorem sqzEmitsTheDripSteps : Obligations.SqzEmitsTheDripSteps := by
  refine ⟨encode_sqz, fun s n hF => exec_of_faulted nofun hF, fun s n hF hA => ?completes⟩
  case completes =>
    rw [← shuffleIfPending]
    intro q
    refine ⟨_, exec_sqz_of_clear n hF hA, ?_⟩
    rw [State.complete_sponge, State.complete_FLT, State.complete_response, State.complete_input]
    exact ⟨by rw [dripSteps_eq_iterate], by rw [dripSteps_A, shuffleIfPending_A], by rw [dripSteps_eq_iterate], hF, rfl⟩

end Machine
end Sys2Proof
end

section
/-! # R100 to R104: the command `XORKS`

`XORKS` refuses with `FLT = 1` and faults when the destination is shorter than the source; else it is `SQZ` of the source's
length, its bytes XORed with the source. -/

namespace Sys2Proof

theorem encode_xorks (dcap : Nat) (src : List Byte) :
    encode (.xorks dcap src) = ⟨BitVec.ofNat 32 (0x06000000 + dcap * 0x1000 + src.length), src⟩ := rfl

namespace Machine

/-- R100: the XOR stage keeps nothing, so its steps are DripSteps, their bytes XORed with the source. -/
theorem xorSteps_eq_dripSteps (src : List Byte) (q : Sponge) :
    xorSteps src q =
      ((dripSteps src.length q).1, List.zipWith (fun b z => b ^^^ z) src (dripSteps src.length q).2) := by
  induction src generalizing q with
  | nil => rfl
  | cons b src ih => rw [xorSteps, ih, List.length_cons, dripSteps, List.zipWith_cons_cons]

section
variable {s : State} {dcap : Nat} {src : List Byte}

/-- R101: with `FLT = 0` a short destination faults, whatever `A` is. -/
theorem exec_xorks_of_short (hF : s.FLT = false) (hshort : dcap < src.length) :
    exec (.xorks dcap src) s = .next (s.faultEntry .eLen) := by
  rw [exec, execXorks, gate_of_clear hF, if_pos hshort]

/-- R104: past the length check `dcap` has no effect. -/
theorem exec_xorks_of_fits (hfits : src.length ≤ dcap) :
    exec (.xorks dcap src) s =
      gate s (withLegalA s (.next (s.complete (xorSteps src (shuffleIfPending s.sponge)).1
        (xorSteps src (shuffleIfPending s.sponge)).2))) := by
  rw [exec, execXorks, if_neg hfits.not_gt]

/-- R100: with `FLT = 0`, `A` legal and room for the source, `XORKS` completes. -/
theorem exec_xorks_of_clear (hF : s.FLT = false) (hA : s.sponge.A ≤ 128) (hfits : src.length ≤ dcap) :
    exec (.xorks dcap src) s =
      .next (s.complete (xorSteps src (shuffleIfPending s.sponge)).1 (xorSteps src (shuffleIfPending s.sponge)).2) := by
  rw [exec_xorks_of_fits hfits, gate_of_clear hF, withLegalA_of_le hA]

end

/-- R103: no capacity is short of nothing, and with no source byte and no byte to emit the two commands run no step. -/
theorem exec_xorks_nil (s : State) (dcap : Nat) : exec (.xorks dcap []) s = exec (.sqz 0) s := by
  rw [exec_xorks_of_fits (Nat.zero_le dcap), exec, execSqz, xorSteps, dripSteps]

/-- R94: with `FLT = 0` and `A` legal, `SQZ 0` completes with the shuffle-if-pending check alone. -/
theorem exec_sqz_zero {s : State} (hF : s.FLT = false) (hA : s.sponge.A ≤ 128) :
    exec (.sqz 0) s = .next (s.complete (shuffleIfPending s.sponge) []) := by
  rw [exec_sqz_of_clear 0 hF hA, dripSteps]

/-- Settles O31: one shuffle-if-pending check, then the DripSteps as iterates, their bytes XORed with the source. -/
theorem xorksXorsTheKeystream : Obligations.XorksXorsTheKeystream := by
  refine ⟨encode_xorks, fun s dcap src hF => exec_of_faulted nofun hF,
    fun s dcap src hF hshort => exec_xorks_of_short hF hshort, fun s dcap src hF hA hfits => ?completes⟩
  case completes =>
    rw [← shuffleIfPending]
    intro q
    have hsteps := xorSteps_eq_dripSteps src q
    rw [dripSteps_eq_iterate] at hsteps
    refine ⟨_, exec_xorks_of_clear hF hA hfits, ?_⟩
    rw [State.complete_sponge, State.complete_FLT, State.complete_response, State.complete_input]
    exact ⟨by rw [hsteps], by rw [xorSteps_A, shuffleIfPending_A], by rw [hsteps], hF, rfl⟩

/-- Settles O28: `SQZ 0` makes the shuffle-if-pending check and runs no step, and so does `XORKS` of nothing. -/
theorem zeroLengthOutputsRunThePendingShuffle : Obligations.ZeroLengthOutputsRunThePendingShuffle := by
  refine ⟨fun s hF hA => ⟨_, exec_sqz_zero hF hA, ?completes⟩, exec_xorks_nil⟩
  case completes =>
    rw [State.complete_sponge, State.complete_FLT, State.complete_response]
    exact ⟨rfl, shuffleIfPending_A _, hF, shuffleIfPending_of_pos, shuffleIfPending_of_zero⟩

/-- Settles O32: the length check stands before the check of `A`; past it one byte is emitted for each source byte. -/
theorem xorksShortDestinationFaults : Obligations.XorksShortDestinationFaults := by
  refine ⟨fun s dcap src hF hshort => exec_xorks_of_short hF hshort, fun s dcap src hF hA hfits => ?accepted⟩
  case accepted =>
    exact ⟨_, _, exec_xorks_of_clear hF hA hfits, State.complete_response .., xorSteps_length .., by
      rw [State.complete_FLT, hF]⟩

end Machine
end Sys2Proof
end

section
/-! # R111: the digest-size encoding

`encDigits` puts the digits of a number in front of those it already holds. Read from 0 on, what it answers is those it held,
read from the number on; and its first digit is zero only when no digit was added and the first one held is zero. -/

namespace Sys2Proof.Machine

/-- Reading one more base-256 digit, most significant first. -/
def appendDigit (n : Nat) (b : Byte) : Nat := 256 * n + b.toNat

/-- The quotient by 256 with the low byte read behind it is the number again. -/
theorem appendDigit_div_low (r : Nat) : appendDigit (r / 256) (BitVec.ofNat 8 r) = r := by
  rw [appendDigit, BitVec.toNat_ofNat]
  exact Nat.div_add_mod r 256

@[simp] theorem encDigits_zero (fuel : Nat) (acc : List Byte) : encDigits fuel 0 acc = acc := by
  cases fuel with
  | zero => rfl
  | succ fuel => exact if_pos rfl

theorem encDigits_succ {r : Nat} (hr : r ≠ 0) (fuel : Nat) (acc : List Byte) :
    encDigits (fuel + 1) r acc = encDigits fuel (r / 256) (BitVec.ofNat 8 r :: acc) := if_neg hr

/-- What is left of a number after its low byte needs one unit of fuel less. -/
theorem div_256_le_of_le_succ {r fuel : Nat} (hfuel : r ≤ fuel + 1) : r / 256 ≤ fuel := by omega

/-- R111: the digits of `r` in front of `acc`, read from 0 on, are `acc` read from `r` on. -/
theorem foldl_encDigits {fuel r : Nat} (hfuel : r ≤ fuel) (acc : List Byte) :
    (encDigits fuel r acc).foldl appendDigit 0 = acc.foldl appendDigit r := by
  induction fuel generalizing r acc with
  | zero => rw [Nat.le_zero.mp hfuel, encDigits_zero]
  | succ fuel ih =>
    by_cases hr : r = 0
    · rw [hr, encDigits_zero]
    · rw [encDigits_succ hr, ih (div_256_le_of_le_succ hfuel), List.foldl_cons, appendDigit_div_low]

/-- A number below 256 other than 0 has a low byte other than 0. -/
theorem ofNat_byte_ne_zero {r : Nat} (hr : r ≠ 0) (hq : r / 256 = 0) : BitVec.ofNat 8 r ≠ 0 := by
  intro hbyte
  have hread := appendDigit_div_low r
  rw [hq, hbyte] at hread
  exact hr hread.symm

/-- R111: no zero is put in front: the last digit put there is what was left of `r` below 256, and not 0. -/
theorem head?_encDigits_ne_zero {fuel r : Nat} (hfuel : r ≤ fuel) {acc : List Byte} (hacc : r = 0 → acc.head? ≠ some 0) :
    (encDigits fuel r acc).head? ≠ some 0 := by
  induction fuel generalizing r acc with
  | zero =>
    have hr := Nat.le_zero.mp hfuel
    rw [hr, encDigits_zero]
    exact hacc hr
  | succ fuel ih =>
    by_cases hr : r = 0
    · rw [hr, encDigits_zero]
      exact hacc hr
    · rw [encDigits_succ hr]
      refine ih (div_256_le_of_le_succ hfuel) fun hq => ?_
      rw [List.head?_cons]
      exact fun hhead => ofNat_byte_ne_zero hr hq (Option.some.inj hhead)

/-- R111: the bytes of `enc(r)`, read most significant first, give `r`. -/
theorem foldl_encSize (r : Nat) : (encSize r).foldl appendDigit 0 = r := foldl_encDigits le_rfl []

/-- R111: `enc(r)` has no leading zero byte. -/
theorem head?_encSize_ne_zero (r : Nat) : (encSize r).head? ≠ some 0 := head?_encDigits_ne_zero le_rfl nofun

/-- Settles O37: induction on the fuel, which `r` itself bounds; the examples are computed. -/
theorem encSizeIsMinimalBigEndian : Obligations.EncSizeIsMinimalBigEndian :=
  ⟨fun r => ⟨foldl_encSize r, head?_encSize_ne_zero r⟩, by decide⟩

end Sys2Proof.Machine
end

section
/-! # R121 to R127, R135: which check a transaction meets

`transact` answers a transaction by the first of R124's four cases that applies: refusal, ILLEGAL, short destination, or the
command itself, which then completes. There is a lemma for each case; a step takes the transaction and answers as `transact`
does. That no two cases apply at once follows from `transact` being a function: each case forces another status. -/

namespace Sys2Proof

/-- R101: the command is no `XORKS` whose destination is shorter than its source. -/
def Instr.DestinationFits (i : Instr) : Prop := ∀ dcap src, i = .xorks dcap src → src.length ≤ dcap

namespace Machine

/-! ## Commands that complete -/

/-- R124 step 4: completing with `FLT = 0` is an answer `OK` that leaves `FLT = 0`. -/
theorem answers_ok_of_complete {r : Result} {s : State} {q : Sponge} {out : List Byte}
    (h : r = .next (s.complete q out)) (hF : s.FLT = false) :
    ∃ u out, r = .next u ∧ u.response = some ⟨.ok, out⟩ ∧ u.FLT = false :=
  ⟨s.complete q out, out, h, s.complete_response q out, (s.complete_FLT q out).trans hF⟩

/-- R135: a command that is not refused, with `A` legal and room for its output, completes with status `OK`. -/
theorem exec_answers_ok {i : Instr} {s : State} (hrun : s.FLT = false ∨ i = .rst) (hA : s.sponge.A ≤ 128)
    (hfits : i.DestinationFits) :
    ∃ u out, exec i s = .next u ∧ u.response = some ⟨.ok, out⟩ ∧ u.FLT = false := by
  by_cases hi : i = .rst
  · subst hi
    exact answers_ok_of_complete (exec_rst s) s.clear_FLT
  have hF := hrun.resolve_right hi
  cases i with
  | rst => exact absurd rfl hi
  | abs data => exact answers_ok_of_complete (exec_abs_of_clear hF (.inr hA)) hF
  | abstop => exact answers_ok_of_complete (exec_abstop_of_clear hF hA) hF
  | drip => exact answers_ok_of_complete (exec_drip_of_clear hF hA) hF
  | sqz n => exact answers_ok_of_complete (exec_sqz_of_clear n hF hA) hF
  | xorks dcap src => exact answers_ok_of_complete (exec_xorks_of_clear hF hA (hfits dcap src rfl)) hF

/-- Settles O48: with `FLT = 0` no command is refused. -/
theorem everyOtherCommandIsTotal : Obligations.EveryOtherCommandIsTotal :=
  fun _ _ hF hA hfits => exec_answers_ok (.inl hF) hA hfits

/-! ## The four cases of R124 -/

section
variable {s : State} {t : Transaction}

/-- R123: with `FLT = 1` whatever does not decode to `RST` is refused. -/
theorem transact_of_faulted (hF : s.FLT = true) (hrst : decode t ≠ .ok .rst) : transact t s = .next s.refuse := by
  cases hdecode : decode t with
  | ok i => rw [transact_of_ok hdecode, exec_of_faulted (fun hi => hrst (hi ▸ hdecode)) hF]
  | error e => rw [transact_of_error hdecode, execIllegal, gate_of_faulted hF]

/-- R122: with `FLT = 0` a transaction that decodes to ILLEGAL enters the fault state. -/
theorem transact_of_illegal {e : Illegal} (hF : s.FLT = false) (hdecode : decode t = .error e) :
    transact t s = .next (s.faultEntry .eIllegal) := by
  rw [transact_of_error hdecode, execIllegal, gate_of_clear hF]

/-- R121: with `FLT = 0` an `XORKS` with a short destination enters the fault state. -/
theorem transact_of_short {dcap : Nat} {src : List Byte} (hF : s.FLT = false)
    (hdecode : decode t = .ok (.xorks dcap src)) (hshort : dcap < src.length) :
    transact t s = .next (s.faultEntry .eLen) := by
  rw [transact_of_ok hdecode, exec_xorks_of_short hF hshort]

end

/-- Settles O43: the step takes the transaction and refuses it. -/
theorem faultedCoreRefuses : Obligations.FaultedCoreRefuses :=
  fun s _ rest hF hinput hrst => (step_of_cons hinput).trans (transact_of_faulted (s := { s with input := rest }) hF hrst)

/-- Settles O44: the step answers as `transact` does, by the lemma of the case; a command that runs completes. -/
theorem checksComeInOrder : Obligations.ChecksComeInOrder := by
  intro s t rest hinput hA
  have hstep : step s = transact t { s with input := rest } := step_of_cons hinput
  refine ⟨fun ⟨hF, hrst⟩ => ?refused, fun hF e hdecode => ?illegal, fun hF dcap src hdecode hshort => ?short,
    fun i hdecode hrun hfits => ?runs⟩
  case refused => exact faultedCoreRefuses s t rest hF hinput hrst
  case illegal => exact hstep.trans (transact_of_illegal hF hdecode)
  case short => exact hstep.trans (transact_of_short hF hdecode hshort)
  case runs =>
    obtain ⟨u, out, hexec, hanswer⟩ := exec_answers_ok (s := { s with input := rest }) hrun hA hfits
    exact ⟨u, out, hstep.trans ((transact_of_ok hdecode).trans hexec), hexec, hanswer⟩

/-! ## The status tells the case -/

/-- R121 to R124: the case in which a transaction is answered with the status, on a core with this `FLT`. -/
def MeetsCheck (FLT : Bool) (t : Transaction) : Status → Prop
  | .eFaulted => FLT = true ∧ decode t ≠ .ok .rst
  | .eIllegal => FLT = false ∧ ∃ e, decode t = .error e
  | .eLen => FLT = false ∧ ∃ dcap src, decode t = .ok (.xorks dcap src) ∧ dcap < src.length
  | .ok => ∃ i, decode t = .ok i ∧ (FLT = false ∨ i = .rst) ∧ i.DestinationFits

/-- R124: one of the four cases applies. -/
theorem exists_meetsCheck (FLT : Bool) (t : Transaction) : ∃ e, MeetsCheck FLT t e := by
  by_cases hrst : decode t = .ok .rst
  · exact ⟨.ok, .rst, hrst, .inr rfl, nofun⟩
  cases FLT with
  | true => exact ⟨.eFaulted, rfl, hrst⟩
  | false =>
    cases hdecode : decode t with
    | error e => exact ⟨.eIllegal, rfl, e, hdecode⟩
    | ok i =>
      by_cases hfits : i.DestinationFits
      · exact ⟨.ok, i, hdecode, .inl rfl, hfits⟩
      · simp only [Instr.DestinationFits, not_forall, not_le] at hfits
        obtain ⟨dcap, src, rfl, hshort⟩ := hfits
        exact ⟨.eLen, rfl, dcap, src, hdecode, hshort⟩

/-- `transact` answers with the status `e`; with any but `OK` the sponge is as before and no byte is emitted. -/
def TransactAnswers (s : State) (t : Transaction) (e : Status) : Prop :=
  ∃ u out, transact t s = .next u ∧ u.response = some ⟨e, out⟩ ∧ (e ≠ .ok → u.sponge = s.sponge ∧ out = [])

section
variable {s : State} {t : Transaction} {e e' : Status}

/-- A transaction has one answer, so it has one status. -/
theorem TransactAnswers.unique (h : TransactAnswers s t e) (h' : TransactAnswers s t e') : e = e' := by
  obtain ⟨u, out, hu, hr, -⟩ := h
  obtain ⟨u', out', hu', hr', -⟩ := h'
  obtain rfl : u = u' := Host.Outcome.next.inj (hu.symm.trans hu')
  exact congrArg Response.status (Option.some.inj (hr.symm.trans hr'))

/-- R125: fault entry answers with its status and leaves the sponge alone. -/
theorem transactAnswers_of_faultEntry (h : transact t s = .next (s.faultEntry e)) : TransactAnswers s t e :=
  ⟨s.faultEntry e, [], h, s.faultEntry_response e, fun _ => ⟨s.faultEntry_sponge e, rfl⟩⟩

/-- R121 to R124: a transaction is answered with the status of the case it is in. -/
theorem MeetsCheck.transactAnswers (hA : s.sponge.A ≤ 128) (h : MeetsCheck s.FLT t e) : TransactAnswers s t e := by
  cases e with
  | eFaulted =>
    obtain ⟨hF, hrst⟩ := h
    exact ⟨s.refuse, [], transact_of_faulted hF hrst, s.refuse_response, fun _ => ⟨s.refuse_sponge, rfl⟩⟩
  | eIllegal =>
    obtain ⟨hF, _, hdecode⟩ := h
    exact transactAnswers_of_faultEntry (transact_of_illegal hF hdecode)
  | eLen =>
    obtain ⟨hF, _, _, hdecode, hshort⟩ := h
    exact transactAnswers_of_faultEntry (transact_of_short hF hdecode hshort)
  | ok =>
    obtain ⟨i, hdecode, hrun, hfits⟩ := h
    obtain ⟨u, out, hexec, hr, -⟩ := exec_answers_ok hrun hA hfits
    exact ⟨u, out, (transact_of_ok hdecode).trans hexec, hr, fun hne => absurd rfl hne⟩

/-- R124: the case a transaction is in is the only one. -/
theorem MeetsCheck.eq_iff (hA : s.sponge.A ≤ 128) (h : MeetsCheck s.FLT t e) : e = e' ↔ MeetsCheck s.FLT t e' :=
  ⟨fun he => he ▸ h, fun h' => (h.transactAnswers hA).unique (h'.transactAnswers hA)⟩

end

/-- Settles O45: some case applies, it fixes the status, and no other status can then be answered. -/
theorem statusTellsWhichCheckFired : Obligations.StatusTellsWhichCheckFired := by
  intro s t rest hinput hA
  obtain ⟨e, hcheck⟩ := exists_meetsCheck s.FLT t
  have hstatus (e' : Status) : e = e' ↔ MeetsCheck s.FLT t e' := hcheck.eq_iff hA
  obtain ⟨u, out, hu, hr, hkept⟩ := MeetsCheck.transactAnswers (s := { s with input := rest }) hA hcheck
  exact ⟨u, ⟨e, out⟩, (step_of_cons hinput).trans hu, hr, hstatus .eFaulted, hstatus .eIllegal, hstatus .eLen,
    hstatus .ok, hkept⟩

/-! ## Leaving the fault state -/

/-- R127: a reset of any of the three kinds leaves the reset sponge. -/
theorem receive_of_isReset {e : Input} {s u : State} (he : e.IsReset) (hu : receive e s = .next u) :
    u.sponge = Sponge.reset := by
  obtain rfl | ⟨t, rfl⟩ | ⟨t, rfl, hdecode⟩ := he
  · cases hu
    exact s.hardReset_sponge
  · cases hu
    exact s.hardReset_sponge
  · rw [receive, transact_of_ok hdecode, exec_rst] at hu
    cases hu
    exact State.complete_sponge ..

/-- R123: with `FLT = 1` whatever is no reset is refused. -/
theorem receive_of_faulted {e : Input} {s : State} (hF : s.FLT = true) (he : ¬ e.IsReset) :
    receive e s = .next s.refuse := by
  cases e with
  | transaction t => exact transact_of_faulted hF fun hdecode => he (.inr (.inr ⟨t, rfl, hdecode⟩))
  | hardwareReset => exact absurd (.inl rfl) he
  | resetDuring t => exact absurd (.inr (.inl ⟨t, rfl⟩)) he

/-- Settles O46: an idle step and a refusal keep `FLT = 1`, so the step took a reset. -/
theorem onlyResetLeavesTheFaultState : Obligations.OnlyResetLeavesTheFaultState := by
  intro s u hF hu hclear
  cases hinput : s.input with
  | nil =>
    rw [step_of_nil hinput] at hu
    cases hu
    exact absurd (hF.symm.trans hclear) nofun
  | cons e rest =>
    rw [step_of_cons hinput] at hu
    by_cases he : e.IsReset
    · exact ⟨receive_of_isReset he hu, e, rest, rfl, he⟩
    · rw [receive_of_faulted (s := { s with input := rest }) hF he] at hu
      cases hu
      exact absurd (hF.symm.trans hclear) nofun

end Machine
end Sys2Proof
end

section
/-! # R59: the round trip between commands and transactions

An encoded command's header holds opcode, capacity and length, and these meet the command's row of the decision list. The other
way round, a decoded transaction has met the condition of its row, which leaves no bit of the header or the payload free. -/

namespace Sys2Proof

/-! ## From the command to the transaction and back -/

/-- R46, R59: an encodable command's header holds its opcode, its capacity and its length. -/
theorem encode_header_fields {i : Instr} (hi : i.wellFormed = true) :
    (encode i).header.toNat / 2 ^ 24 = Laws.HeaderFields.opcode i ∧
    (encode i).header.toNat / 2 ^ 12 % 2 ^ 12 = Laws.HeaderFields.dcapField i ∧
    (encode i).header.toNat % 2 ^ 12 = Laws.HeaderFields.lenField i := by
  have hfields : Laws.HeaderFields.Statement i := by
    cases i with
    | rst => exact Laws.HeaderFields.rst
    | abs data => exact Laws.HeaderFields.abs data
    | abstop => exact Laws.HeaderFields.abstop
    | drip => exact Laws.HeaderFields.drip
    | sqz n => exact Laws.HeaderFields.sqz n
    | xorks dcap src => exact Laws.HeaderFields.xorks dcap src
  obtain ⟨hop, hdcap, hlen⟩ := hfields hi
  exact ⟨Header.op_toNat _ ▸ hop, Header.dcap_toNat _ ▸ hdcap, Header.len_toNat _ ▸ hlen⟩

/-- Settles O6: the encoding of a command meets the condition of the command's own row of the decision list. -/
theorem decodeOfEncodeIsTheCommand : Obligations.DecodeOfEncodeIsTheCommand := by
  intro i hi
  obtain ⟨hop, hdcap, hlen⟩ := encode_header_fields hi
  cases i with
  | rst => exact (decode_rst_decided hop).accepts ⟨hdcap, hlen, rfl⟩
  | abs data => exact (decode_abs_decided hop).accepts ⟨hdcap, hlen.symm⟩
  | abstop => exact (decode_abstop_decided hop).accepts ⟨hdcap, hlen, rfl⟩
  | drip => exact (decode_drip_decided hop).accepts ⟨hdcap, hlen, rfl⟩
  | sqz n => exact ((decode_sqz_decided hop).accepts ⟨hdcap, rfl⟩).trans (by rw [hlen]; rfl)
  | xorks dcap src => exact ((decode_xorks_decided hop).accepts hlen.symm).trans (by rw [hdcap]; rfl)

/-! ## From the transaction to the command and back -/

/-- A decided verdict that is a command is the command of its row, and the row's condition holds. -/
theorem VerdictDecidedBy.of_eq_ok {c : Prop} {i j : Instr} {r : Except Illegal Instr} (h : VerdictDecidedBy c i r)
    (hr : r = .ok j) : c ∧ j = i := by
  by_cases hc : c
  · exact ⟨hc, Except.ok.inj (hr.symm.trans (h.accepts hc))⟩
  · obtain ⟨e, he⟩ := h.rejects hc
    exact absurd (hr.symm.trans he) nofun

/-- R50: a transaction that decodes meets the conditions of one row of the decision list. -/
theorem decode_ok_cases {t : Transaction} {i : Instr} (h : decode t = .ok i) :
    (t.header.toNat / 2 ^ 24 = 1 ∧ t.HasNoOperand ∧ i = .rst) ∨
    (t.header.toNat / 2 ^ 24 = 2 ∧
      (t.header.toNat / 2 ^ 12 % 2 ^ 12 = 0 ∧ t.payload.length = t.header.toNat % 2 ^ 12) ∧ i = .abs t.payload) ∨
    (t.header.toNat / 2 ^ 24 = 3 ∧ t.HasNoOperand ∧ i = .abstop) ∨
    (t.header.toNat / 2 ^ 24 = 4 ∧ t.HasNoOperand ∧ i = .drip) ∨
    (t.header.toNat / 2 ^ 24 = 5 ∧ (t.header.toNat / 2 ^ 12 % 2 ^ 12 = 0 ∧ t.payload.length = 0) ∧
      i = .sqz (t.header.toNat % 2 ^ 12)) ∨
    (t.header.toNat / 2 ^ 24 = 6 ∧ t.payload.length = t.header.toNat % 2 ^ 12 ∧
      i = .xorks (t.header.toNat / 2 ^ 12 % 2 ^ 12) t.payload) := by
  by_cases hop : t.header.toNat / 2 ^ 24 ∈ [1, 2, 3, 4, 5, 6]
  · simp only [List.mem_cons, List.not_mem_nil, or_false] at hop
    refine hop.imp (fun hop => ⟨hop, (decode_rst_decided hop).of_eq_ok h⟩) <|
      .imp (fun hop => ⟨hop, (decode_abs_decided hop).of_eq_ok h⟩) <|
      .imp (fun hop => ⟨hop, (decode_abstop_decided hop).of_eq_ok h⟩) <|
      .imp (fun hop => ⟨hop, (decode_drip_decided hop).of_eq_ok h⟩) <|
      .imp (fun hop => ⟨hop, (decode_sqz_decided hop).of_eq_ok h⟩) fun hop =>
        ⟨hop, (decode_xorks_decided hop).of_eq_ok h⟩
  · exact absurd (h.symm.trans (decode_reserved hop)) nofun

/-- R46: the three fields are all that a header holds. -/
theorem Header.eq_mkHeader {h : Header} {op dcap len : Nat} (hop : h.toNat / 2 ^ 24 = op)
    (hdcap : h.toNat / 2 ^ 12 % 2 ^ 12 = dcap) (hlen : h.toNat % 2 ^ 12 = len) : mkHeader op dcap len = h := by
  have hlt := h.isLt
  apply BitVec.eq_of_toNat_eq
  rw [mkHeader_toNat (by omega) (by omega) (by omega)]
  omega

/-- R7, R54: what 12 bits hold is a length one command can carry. -/
theorem fitsLen_mod (n : Nat) : fitsLen (n % 2 ^ 12) = true := fitsLen_iff.mpr (by omega)

/-- Settles O7: the row's condition fixes every field of the header and the payload, and each length stands in 12 bits. -/
theorem encodeOfDecodeIsTheTransaction : Obligations.EncodeOfDecodeIsTheTransaction := by
  intro t i h
  obtain ⟨hop, hnone, rfl⟩ | ⟨hop, ⟨hdcap, hlen⟩, rfl⟩ | ⟨hop, hnone, rfl⟩ | ⟨hop, hnone, rfl⟩ |
    ⟨hop, ⟨hdcap, hnil⟩, rfl⟩ | ⟨hop, hlen, rfl⟩ := decode_ok_cases h
  · exact ⟨(hnone.eq_mkHeader hop).symm, rfl⟩
  · refine ⟨by rw [encode, Header.eq_mkHeader hop hdcap hlen.symm], ?_⟩
    rw [Instr.wellFormed, hlen, fitsLen_mod]
  · exact ⟨(hnone.eq_mkHeader hop).symm, rfl⟩
  · exact ⟨(hnone.eq_mkHeader hop).symm, rfl⟩
  · refine ⟨?_, fitsLen_mod _⟩
    rw [encode, Header.eq_mkHeader hop hdcap rfl, ← List.eq_nil_of_length_eq_zero hnil]
  · refine ⟨by rw [encode, Header.eq_mkHeader hop rfl hlen.symm], ?_⟩
    rw [Instr.wellFormed, hlen, fitsLen_mod, fitsLen_mod, Bool.and_self]

/-! ## What decodes is what is legal and well framed -/

/-- R47: the opcode compared as a number. -/
theorem Header.op_eq_iff {h : Header} {c : BitVec 8} : Header.op h = c ↔ h.toNat / 2 ^ 24 = c.toNat := by
  rw [← BitVec.toNat_inj, Header.op_toNat]

/-- R50: the transaction meets the conditions of one row of the decision list. -/
def Transaction.MeetsRow (t : Transaction) : Prop :=
  (t.header.toNat / 2 ^ 24 = 1 ∧ t.HasNoOperand) ∨
  (t.header.toNat / 2 ^ 24 = 2 ∧ t.header.toNat / 2 ^ 12 % 2 ^ 12 = 0 ∧ t.payload.length = t.header.toNat % 2 ^ 12) ∨
  (t.header.toNat / 2 ^ 24 = 3 ∧ t.HasNoOperand) ∨
  (t.header.toNat / 2 ^ 24 = 4 ∧ t.HasNoOperand) ∨
  (t.header.toNat / 2 ^ 24 = 5 ∧ t.header.toNat / 2 ^ 12 % 2 ^ 12 = 0 ∧ t.payload.length = 0) ∨
  (t.header.toNat / 2 ^ 24 = 6 ∧ t.payload.length = t.header.toNat % 2 ^ 12)

variable {t : Transaction}

theorem exists_decode_ok_iff_meetsRow : (∃ i, decode t = .ok i) ↔ t.MeetsRow := by
  constructor
  · rintro ⟨i, h⟩
    exact (decode_ok_cases h).imp (fun ⟨hop, hc, _⟩ => ⟨hop, hc⟩) <| .imp (fun ⟨hop, hc, _⟩ => ⟨hop, hc⟩) <|
      .imp (fun ⟨hop, hc, _⟩ => ⟨hop, hc⟩) <| .imp (fun ⟨hop, hc, _⟩ => ⟨hop, hc⟩) <|
      .imp (fun ⟨hop, hc, _⟩ => ⟨hop, hc⟩) fun ⟨hop, hc, _⟩ => ⟨hop, hc⟩
  · rintro (⟨hop, hc⟩ | ⟨hop, hc⟩ | ⟨hop, hc⟩ | ⟨hop, hc⟩ | ⟨hop, hc⟩ | ⟨hop, hc⟩)
    · exact ⟨_, (decode_rst_decided hop).accepts hc⟩
    · exact ⟨_, (decode_abs_decided hop).accepts hc⟩
    · exact ⟨_, (decode_abstop_decided hop).accepts hc⟩
    · exact ⟨_, (decode_drip_decided hop).accepts hc⟩
    · exact ⟨_, (decode_sqz_decided hop).accepts hc⟩
    · exact ⟨_, (decode_xorks_decided hop).accepts hc⟩

/-- R48, R49: legality fixes the fields of a row, and the framing asks for the row's payload. -/
theorem legal_and_wellFramed_iff_meetsRow :
    (Header.legal t.header = true ∧ t.wellFramed = true) ↔ t.MeetsRow := by
  rw [Header.legal_iff_fields, Transaction.wellFramed, beq_iff_eq, Header.payloadLen, Header.len_toNat,
    Transaction.MeetsRow, Transaction.HasNoOperand]
  simp only [Header.op_eq_iff, Header.dcap_eq_zero_iff, Header.len_eq_zero_iff, BitVec.reduceToNat]
  generalize t.header.toNat / 2 ^ 24 = op, t.header.toNat / 2 ^ 12 % 2 ^ 12 = dcap, t.header.toNat % 2 ^ 12 = len,
    t.payload.length = n
  simp only [or_and_right, and_assoc]
  refine or_congr (and_congr_right ?rst) <| or_congr (and_congr_right ?abs) <| or_congr (and_congr_right ?abstop) <|
    or_congr (and_congr_right ?drip) <| or_congr (and_congr_right ?sqz) (and_congr_right ?xorks)
  all_goals rintro rfl; simp

/-- Settles O5: both sides say that the transaction meets a row of the decision list. -/
theorem decodedIffLegalAndWellFramed : Obligations.DecodedIffLegalAndWellFramed :=
  fun _ => exists_decode_ok_iff_meetsRow.trans legal_and_wellFramed_iff_meetsRow.symm

/-- Settles O8: seven closed runs of the decoder. -/
theorem sampleWordsDecode : Obligations.SampleWordsDecode :=
  ⟨by decide, by decide, by decide, by decide, by decide, by decide, by decide⟩

end Sys2Proof
end

section
/-! # R11 to R18, R51, R52: what every step keeps

A transaction ends in one of four ways: a reset, a completion, a refusal or fault entry. Each of them leaves a status that tells
`FLT`, and only the first two touch the sponge. The invariant follows: the array is changed by swaps alone, and every operation
keeps the stride odd and the counter at most 128. -/

namespace Sys2Proof.Machine

/-! ## The four endings of a transaction -/

/-- R124: the ways a transaction delivered to `s` ends. -/
inductive State.EndsIn (s : State) : State → Prop
  /-- `RST` ran (R65). -/
  | reset : s.EndsIn (s.clear.complete Sponge.reset [])
  /-- Any other command ran (R124 step 4). -/
  | completed (hF : s.FLT = false) (q : Sponge) (out : List Byte) : s.EndsIn (s.complete q out)
  /-- Refused with `FLT = 1` (R123). -/
  | refused (hF : s.FLT = true) : s.EndsIn s.refuse
  /-- Fault entry (R121, R122, R125). -/
  | faulted (hF : s.FLT = false) {e : Status} (he : e = .eLen ∨ e = .eIllegal) : s.EndsIn (s.faultEntry e)

section
variable {s t : State}

theorem exec_endsIn {i : Instr} (ht : exec i s = .next t) : s.EndsIn t := by
  obtain ⟨-, rfl⟩ | ⟨-, hF, rfl⟩ | ⟨hF, -, rfl⟩ | ⟨hF, -, _, -, -, rfl⟩ | ⟨hF, -, -, rfl⟩ | ⟨hF, -, -, rfl⟩ |
    ⟨hF, -, _, -, rfl⟩ | ⟨hF, _, _, -, -, rfl⟩ | ⟨hF, -, _, _, -, -, rfl⟩ := exec_next_cases ht
  · exact .reset
  · exact .refused hF
  · exact .completed hF _ _
  · exact .completed hF _ _
  · exact .completed hF _ _
  · exact .completed hF _ _
  · exact .completed hF _ _
  · exact .faulted hF (.inl rfl)
  · exact .completed hF _ _

theorem execIllegal_endsIn (ht : execIllegal s = .next t) : s.EndsIn t := by
  cases hF : s.FLT with
  | true =>
    rw [execIllegal, gate_of_faulted hF] at ht
    cases ht
    exact .refused hF
  | false =>
    rw [execIllegal, gate_of_clear hF] at ht
    cases ht
    exact .faulted hF (.inr rfl)

theorem transact_endsIn {tr : Transaction} (ht : transact tr s = .next t) : s.EndsIn t := by
  cases hdecode : decode tr with
  | ok i => exact exec_endsIn ((transact_of_ok hdecode).symm.trans ht)
  | error e => exact execIllegal_endsIn ((transact_of_error hdecode).symm.trans ht)

/-- R18, R51, R125: there is one response, its status tells `FLT`, and one that is not `OK` comes with no byte and leaves
the sponge alone. -/
theorem State.EndsIn.response (h : s.EndsIn t) :
    ∃ r, t.response = some r ∧ t.FLT = r.status.fltAfter ∧ (r.status ≠ .ok → t.sponge = s.sponge ∧ r.out = []) := by
  cases h with
  | reset =>
    exact ⟨_, State.complete_response .., (State.complete_FLT ..).trans s.clear_FLT, fun hne => absurd rfl hne⟩
  | completed hF q out => exact ⟨_, s.complete_response q out, (s.complete_FLT q out).trans hF, fun hne => absurd rfl hne⟩
  | refused hF => exact ⟨_, s.refuse_response, s.refuse_FLT.trans hF, fun _ => ⟨s.refuse_sponge, rfl⟩⟩
  | @faulted hF e he =>
    refine ⟨_, s.faultEntry_response e, (s.faultEntry_FLT e).trans ?_, fun _ => ⟨s.faultEntry_sponge e, rfl⟩⟩
    obtain rfl | rfl := he <;> rfl

/-- R20: no command reads or changes what is still to be taken. -/
theorem State.EndsIn.input_eq (h : s.EndsIn t) : t.input = s.input := by
  cases h with
  | reset => rw [State.complete_input, State.clear_input]
  | completed hF q out => exact s.complete_input q out
  | refused hF => exact s.refuse_input
  | @faulted hF e he => exact s.faultEntry_input e

theorem State.EndsIn.responseTellsFault (h : s.EndsIn t) : t.ResponseTellsFault := by
  obtain ⟨r, hr, hFLT, hout⟩ := h.response
  rintro _ hr'
  obtain rfl := Option.some.inj (hr.symm.trans hr')
  exact ⟨hFLT, fun hne => (hout hne).2⟩

/-- R18: `STATUS` is 0 exactly with `FLT = 0`. -/
theorem State.STATUS_eq_zero_iff : s.STATUS = 0 ↔ s.FLT = false := by
  rw [State.STATUS]
  cases s.FLT <;> decide

end

/-- Settles O9: the codes are computed; the ending of a command leaves `FLT` as its status has it. -/
theorem statusCodesAreTheTable : Obligations.StatusCodesAreTheTable := by
  refine ⟨rfl, rfl, rfl, rfl, fun e => ?code, by decide, Status.fltAfter_eq_false, fun i s t ht => ?flt⟩
  case code => cases e <;> rfl
  case flt =>
    obtain ⟨r, hr, hFLT, -⟩ := (exec_endsIn ht).response
    exact ⟨r, hr, hFLT⟩

/-- Settles O49: the ending of the transaction tells the status and keeps the inputs that are left. -/
theorem statusRegisterTellsTheResponse : Obligations.StatusRegisterTellsTheResponse := by
  intro s u t rest hinput hu
  rw [step_of_cons hinput] at hu
  have hend := transact_endsIn hu
  obtain ⟨r, hr, hFLT, hkept⟩ := hend.response
  exact ⟨hend.input_eq, r, hr, by rw [State.STATUS_eq_zero_iff, hFLT, Status.fltAfter_eq_false], hkept⟩

/-- Settles O47: of the endings of a transaction only fault entry leaves `FLT = 1` where it was 0; a step that takes no
transaction leaves it or clears it. -/
theorem onlyFaultEntrySetsFLT : Obligations.OnlyFaultEntrySetsFLT := by
  intro s u hu hF hset
  cases hinput : s.input with
  | nil =>
    rw [step_of_nil hinput] at hu
    cases hu
    exact absurd (hF.symm.trans hset) nofun
  | cons e rest =>
    rw [step_of_cons hinput] at hu
    cases e with
    | transaction t =>
      cases transact_endsIn hu with
      | reset => exact absurd hset nofun
      | completed hF' q out => exact absurd (hF.symm.trans hset) nofun
      | refused hF' => exact absurd (hF.symm.trans hset) nofun
      | @faulted hF' e he => exact ⟨State.faultEntry_sponge .., he.imp (fun h => by rw [h]; rfl) fun h => by rw [h]; rfl⟩
    | hardwareReset => cases hu; exact absurd hset nofun
    | resetDuring t => cases hu; exact absurd hset nofun

/-! ## The invariant -/

/-- R11, R13, R15: every command keeps the sponge's invariant. -/
theorem exec_sponge_inv {i : Instr} {s t : State} (ht : exec i s = .next t) (h : s.sponge.Inv) : t.sponge.Inv := by
  have hpending := shuffleIfPending_inv h
  obtain ⟨-, rfl⟩ | ⟨-, -, rfl⟩ | ⟨-, -, rfl⟩ | ⟨-, -, data, -, -, rfl⟩ | ⟨-, -, -, rfl⟩ | ⟨-, -, -, rfl⟩ |
    ⟨-, -, n, -, rfl⟩ | ⟨-, dcap, src, -, -, rfl⟩ | ⟨-, -, dcap, src, -, -, rfl⟩ := exec_next_cases ht
  · rw [State.complete_sponge]; exact reset_inv
  · rwa [State.refuse_sponge]
  · rwa [State.complete_sponge]
  · rw [State.complete_sponge]; exact absorb_inv h data
  · rw [State.complete_sponge]; exact absorbStop_inv h
  · rw [State.complete_sponge]; exact dripStep_inv hpending
  · rw [State.complete_sponge]; exact dripSteps_inv n hpending
  · rwa [State.faultEntry_sponge]
  · rw [State.complete_sponge]; exact xorSteps_inv src hpending

theorem transact_sponge_inv {tr : Transaction} {s t : State} (ht : transact tr s = .next t) (h : s.sponge.Inv) :
    t.sponge.Inv := by
  cases hdecode : decode tr with
  | ok i => exact exec_sponge_inv ((transact_of_ok hdecode).symm.trans ht) h
  | error e => rwa [execIllegal_sponge ((transact_of_error hdecode).symm.trans ht)]

/-- R140: hardware reset gives a good state from every state. -/
theorem State.hardReset_inv (s : State) : s.hardReset.Inv where
  sponge := by rw [State.hardReset_sponge]; exact reset_inv
  port := by rintro r hr; rw [State.hardReset_response] at hr; cases hr

theorem receive_inv {e : Input} {s t : State} (ht : receive e s = .next t) (h : s.sponge.Inv) : t.Inv := by
  cases e with
  | transaction tr => exact ⟨transact_sponge_inv ht h, (transact_endsIn ht).responseTellsFault⟩
  | hardwareReset => cases ht; exact s.hardReset_inv
  | resetDuring tr => cases ht; exact s.hardReset_inv

/-- Settles O58: acting on an input gives a good state from every good sponge, and an idle step keeps the state. -/
theorem stepKeepsTheInvariant : Obligations.StepKeepsTheInvariant := by
  intro s t h ht
  cases hinput : s.input with
  | nil =>
    rw [step_of_nil hinput] at ht
    cases ht
    exact h
  | cons e rest => exact receive_inv ((step_of_cons hinput).symm.trans ht) h.sponge

/-- Settles O57: the reset sponge meets the sponge's invariant, and there is no response. -/
theorem resetStateIsGood : Obligations.ResetStateIsGood := ⟨reset_inv, nofun⟩

/-- Settles O59: with `A` legal every transaction meets one of the four checks and is answered. -/
theorem goodStateNeverStops : Obligations.GoodStateNeverStops := by
  intro s h
  cases hinput : s.input with
  | nil => exact ⟨s, step_of_nil hinput⟩
  | cons e rest =>
    rw [step_of_cons hinput]
    cases e with
    | transaction t =>
      obtain ⟨e, hcheck⟩ := exists_meetsCheck s.FLT t
      obtain ⟨u, -, hu, -⟩ := MeetsCheck.transactAnswers (s := { s with input := rest }) h.sponge.counter hcheck
      exact ⟨u, hu⟩
    | hardwareReset => exact ⟨_, rfl⟩
    | resetDuring t => exact ⟨_, rfl⟩

/-- Settles O60: a step that takes no reset keeps what a swap keeps, and the reset array is the identity. -/
theorem stepKeepsThePermutation : Obligations.StepKeepsThePermutation := by
  intro s t h ht
  obtain ⟨hreset, -⟩ | hkept := step_keeps_or_resets keptBySwap_isPermutation ht h
  · rw [hreset]; exact Memory.isPermutation_nil
  · exact hkept

/-- Settles O2: by the laws of the canonical form. -/
theorem canonicalMemoryIsItsBytes : Obligations.CanonicalMemoryIsItsBytes :=
  ⟨fun _ _ hm hn => ⟨Memory.ext_of_read hm hn, fun h x => by rw [h]⟩, fun _ x y hm => Memory.wf_swap hm x y⟩

end Sys2Proof.Machine
end

section
/-! # R6, R67, R131, R132, R140: resets, single steps and several cores

What a step does with the oldest input is `receive`'s answer to it; a run of commands reads the state only through the
commands, so it carries over agreement on the sponge and `FLT` as each of them does. -/

namespace Sys2Proof.Machine

/-! ## Steps -/

/-- Settles O51: hardware reset and `RST` both go through `State.clear`. -/
theorem hardwareResetActsAsRst : Obligations.HardwareResetActsAsRst := by
  intro s e rest hinput he
  have hstep : step s = .next { s with input := rest }.hardReset := by
    rw [step_of_cons hinput]
    obtain rfl | ⟨t, rfl⟩ := he <;> rfl
  exact ⟨_, _, hstep, exec_rst s, by simp, by simp, by simp, by simp⟩

/-- Settles O42: the step takes the transaction and enters the fault state. -/
theorem illegalTransactionEntersFault : Obligations.IllegalTransactionEntersFault :=
  fun s _ rest _ hF hinput hdecode =>
    (step_of_cons hinput).trans (transact_of_illegal (s := { s with input := rest }) hF hdecode)

/-- Settles O52: the step takes the transaction, which decodes, and runs its command. -/
theorem stepRunsTheDecodedCommand : Obligations.StepRunsTheDecodedCommand :=
  fun _ _ _ _ hinput hdecode => (step_of_cons hinput).trans (transact_of_ok hdecode)

/-- A table word reads as a command exactly when its transaction decodes to it. -/
theorem decodeTableWord_eq_some_iff {nbits w : Nat} {i : Instr} :
    decodeTableWord nbits w = some i ↔ decode (tableTransaction nbits w) = .ok i := by
  rw [decodeTableWord]
  cases decode (tableTransaction nbits w) <;> simp

/-- Settles O53: the placed word is the oldest input, and taking it leaves the state as it was. -/
theorem placedWordRunsNext : Obligations.PlacedWordRunsNext :=
  fun s nbits w i h => stepRunsTheDecodedCommand (s.withFetchWord nbits w) (tableTransaction nbits w) s.input i rfl
    (decodeTableWord_eq_some_iff.mp h)

/-- Settles O54: with nothing to take the core is idle. -/
theorem idleCoreKeepsItsState : Obligations.IdleCoreKeepsItsState := fun _ hinput => step_of_nil hinput

/-- R132: when core `k` of a list takes a step, the list afterwards is the list with the stepped core in its place. -/
theorem stepCore_next_cases {k : Nat} {cores after : List State} (h : stepCore k cores = .next after) :
    (cores[k]? = none ∧ after = cores) ∨ ∃ s t, cores[k]? = some s ∧ step s = .next t ∧ after = cores.set k t := by
  unfold stepCore at h
  split at h
  next hk => cases h; exact .inl ⟨hk, rfl⟩
  next s hk =>
    split at h
    next t ht => cases h; exact .inr ⟨s, t, hk, ht, rfl⟩
    all_goals cases h

/-- Settles O50: replacing element `k` of a list changes no other element. -/
theorem coresShareNothing : Obligations.CoresShareNothing := by
  intro k j cores after h
  obtain ⟨hk, rfl⟩ | ⟨s, t, hk, ht, rfl⟩ := stepCore_next_cases h
  · exact ⟨rfl, fun _ => rfl, fun s hs => absurd (hk.symm.trans hs) nofun⟩
  · refine ⟨List.length_set, fun hj => List.getElem?_set_ne hj.symm, fun s' hs' => ⟨t, ?_, ?_⟩⟩
    · rwa [← Option.some.inj (hk.symm.trans hs')]
    · rw [List.getElem?_set_self (List.getElem?_eq_some_iff.mp hk).1]

/-! ## Runs of commands -/

/-- What an issued list of commands answers, one command and then the rest. -/
theorem issue_cons_of_next {i : Instr} {is : List Instr} {s t u : State} {rs : List Response}
    (ht : exec i s = .next t) (hu : issue is t = .next (u, rs)) :
    issue (i :: is) s = .next (u, t.response.toList ++ rs) := by
  simp only [issue, ht, hu]

/-- When a list of commands runs, so do its first command and then the rest. -/
theorem issue_cons_next {i : Instr} {is : List Instr} {s u : State} {rs : List Response}
    (h : issue (i :: is) s = .next (u, rs)) :
    ∃ t rs', exec i s = .next t ∧ issue is t = .next (u, rs') ∧ rs = t.response.toList ++ rs' := by
  unfold issue at h
  split at h
  · cases h
  · cases h
  next t ht =>
    split at h
    · cases h
    · cases h
    next v hv =>
      cases h
      exact ⟨t, v.2, ht, hv, rfl⟩

/-- R6: a run of commands answers alike from states that agree on the sponge and `FLT`. -/
theorem State.AgreesWith.issue_next {cs : List Instr} {s s' t : State} {rs : List Response} (h : s.AgreesWith s')
    (ht : issue cs s = .next (t, rs)) :
    ∃ t', issue cs s' = .next (t', rs) ∧ t'.sponge = t.sponge ∧ t'.FLT = t.FLT := by
  induction cs generalizing s s' rs with
  | nil =>
    cases ht
    exact ⟨s', rfl, h.sponge.symm, h.FLT.symm⟩
  | cons i is ih =>
    obtain ⟨u, rs', hu, hrest, rfl⟩ := issue_cons_next ht
    obtain ⟨u', hu', hsponge, hFLT, hresponse⟩ := h.answers_exec i u hu
    obtain ⟨t', ht', hagrees⟩ := ih ⟨hsponge.symm, hFLT.symm⟩ hrest
    exact ⟨t', hresponse ▸ issue_cons_of_next hu' ht', hagrees⟩

/-- R67: `RST` after `RST` changes nothing. -/
theorem exec_rst_rst {s t : State} (ht : exec .rst s = .next t) : exec .rst t = .next t := by
  rw [exec_rst] at ht
  cases ht
  rfl

/-- Settles O13: `RST` leaves states that agree on the sponge, `FLT` and the response, and the rest of the run reads no more. -/
theorem rstForgetsEverything : Obligations.RstForgetsEverything := by
  refine ⟨fun cs s s' t rs h => ?forgets, fun s t => exec_rst_rst⟩
  case forgets =>
    obtain ⟨u, rs', hu, hrest, rfl⟩ := issue_cons_next h
    rw [exec_rst] at hu
    cases hu
    have hagrees : (s.clear.complete Sponge.reset []).AgreesWith (s'.clear.complete Sponge.reset []) :=
      ⟨by simp, by simp⟩
    obtain ⟨t', ht', hsame⟩ := hagrees.issue_next hrest
    have hrun := issue_cons_of_next (exec_rst s') ht'
    rw [State.complete_response] at hrun ⊢
    exact ⟨t', hrun, hsame⟩

/-! ## Counters out of range -/

section
variable {s : State} (hF : s.FLT = false) (hA : ¬ s.sponge.A ≤ 128)
include hF hA

/-- U9: with a byte to absorb `ABS` reads `A`. -/
theorem exec_abs_stuck {data : List Byte} (hdata : data ≠ []) :
    exec (.abs data) s = .fault .absorbCounterOutOfRange := by
  rw [exec, execAbs, gate_of_clear hF, if_neg hdata, withLegalA_of_gt hA]

theorem exec_abstop_stuck : exec .abstop s = .fault .absorbCounterOutOfRange := by
  rw [exec, execAbstop, gate_of_clear hF, withLegalA_of_gt hA]

theorem exec_drip_stuck : exec .drip s = .fault .absorbCounterOutOfRange := by
  rw [exec, execDrip, gate_of_clear hF, withLegalA_of_gt hA]

theorem exec_sqz_stuck (n : Nat) : exec (.sqz n) s = .fault .absorbCounterOutOfRange := by
  rw [exec, execSqz, gate_of_clear hF, withLegalA_of_gt hA]

/-- U9: past its length check `XORKS` reads `A`. -/
theorem exec_xorks_stuck {dcap : Nat} {src : List Byte} (hfits : src.length ≤ dcap) :
    exec (.xorks dcap src) s = .fault .absorbCounterOutOfRange := by
  rw [exec_xorks_of_fits hfits, gate_of_clear hF, withLegalA_of_gt hA]

end

/-- Settles O56: the commands that read `A` stop at its check; the three others answer before it. -/
theorem counterOutOfRangeIsStuck : Obligations.CounterOutOfRangeIsStuck := by
  intro s hF hgt
  have hA : ¬ s.sponge.A ≤ 128 := BitVec.not_le.mpr hgt
  exact ⟨fun _ => exec_abs_stuck hF hA, exec_abstop_stuck hF hA, exec_drip_stuck hF hA, exec_sqz_stuck hF hA,
    fun _ _ => exec_xorks_stuck hF hA, ⟨_, exec_rst s⟩, ⟨_, exec_abs_nil hF⟩,
    fun _ _ hshort => ⟨_, exec_xorks_of_short hF hshort⟩⟩

end Sys2Proof.Machine
end

section
/-! # R14, R16, R75, R76: what `ABS` does to the counter, the stride and the array

A nibble counts one, after a Shuffle when the counter is 128; so over any number of nibbles the counter and the Shuffles add up
to the nibbles absorbed. While no Shuffle falls due, a byte is two swaps and two increments. -/

namespace Sys2Proof.Machine

/-! ## `ABS` and `ABSTOP` when they answer -/

section
variable {s t : State}

/-- R72, R123: `ABS` is refused, or it completes with the bytes absorbed. -/
theorem exec_abs_next_cases {data : List Byte} (ht : exec (.abs data) s = .next t) :
    (s.FLT = true ∧ t = s.refuse) ∨
    (s.FLT = false ∧ (data = [] ∨ s.sponge.A ≤ 128) ∧ t = s.complete (absorb s.sponge data) []) := by
  cases hF : s.FLT with
  | true => exact .inl ⟨rfl, Host.Outcome.next.inj (ht.symm.trans (exec_of_faulted nofun hF))⟩
  | false =>
    have hA : data = [] ∨ s.sponge.A ≤ 128 := by
      by_contra hstuck
      obtain ⟨hdata, hA⟩ := not_or.mp hstuck
      exact absurd (ht.symm.trans (exec_abs_stuck hF hA hdata)) nofun
    exact .inr ⟨rfl, hA, Host.Outcome.next.inj (ht.symm.trans (exec_abs_of_clear hF hA))⟩

/-- R74, R123: `ABSTOP` is refused, or it completes. -/
theorem exec_abstop_next_cases (ht : exec .abstop s = .next t) :
    (s.FLT = true ∧ t = s.refuse) ∨ (s.FLT = false ∧ t = s.complete (absorbStop s.sponge) []) := by
  cases hF : s.FLT with
  | true => exact .inl ⟨rfl, Host.Outcome.next.inj (ht.symm.trans (exec_of_faulted nofun hF))⟩
  | false =>
    have hA : s.sponge.A ≤ 128 := by
      by_contra hA
      exact absurd (ht.symm.trans (exec_abstop_stuck hF hA)) nofun
    exact .inr ⟨rfl, Host.Outcome.next.inj (ht.symm.trans (exec_abstop_of_clear hF hA))⟩

/-- R75: after `ABS` of nothing every `ABS` answers as it would have before. -/
theorem exec_abs_after_nil (hF : s.FLT = false) (y : List Byte) :
    exec (.abs y) (s.complete s.sponge []) = exec (.abs y) s := by
  have hF' : (s.complete s.sponge []).FLT = false := (s.complete_FLT _ _).trans hF
  by_cases hA : y = [] ∨ s.sponge.A ≤ 128
  · rw [exec_abs_of_clear hF hA, exec_abs_of_clear hF' (by rwa [State.complete_sponge]), State.complete_complete,
      State.complete_sponge]
  · obtain ⟨hy, hA⟩ := not_or.mp hA
    rw [exec_abs_stuck hF hA hy, exec_abs_stuck hF' (by rwa [State.complete_sponge]) hy]

end

/-- Settles O17: a refusal is repeated; nothing absorbed first leaves the sponge; else both parts complete. -/
theorem absSplitsAnywhere : Obligations.AbsSplitsAnywhere := by
  intro s t x y ht
  obtain ⟨hF, rfl⟩ | ⟨hF, rfl | hA, rfl⟩ := exec_abs_next_cases ht
  · rw [exec_of_faulted (i := .abs _) nofun hF, exec_of_faulted (i := .abs _) nofun (s.refuse_FLT.trans hF),
      State.refuse_refuse]
  · exact (exec_abs_after_nil hF y).symm
  · have hA' : (s.complete (absorb s.sponge x) []).sponge.A ≤ 128 := by
      rw [State.complete_sponge]; exact absorb_A_le hA x
    rw [exec_abs_of_clear hF (.inr hA), exec_abs_of_clear ((s.complete_FLT _ _).trans hF) (.inr hA'),
      State.complete_complete, State.complete_sponge, absorb_append]

/-- Settles O21: a refusal leaves the sponge, and `absorb` and `absorbStop` leave `Z`. -/
theorem absorbingKeepsZ : Obligations.AbsorbingKeepsZ := by
  refine ⟨shuffle_Z, fun s t data ht => ?abs, fun s t ht => ?abstop⟩
  case abs =>
    obtain ⟨-, rfl⟩ | ⟨-, -, rfl⟩ := exec_abs_next_cases ht
    · rw [State.refuse_sponge]
    · rw [State.complete_sponge, absorb_Z]
  case abstop =>
    obtain ⟨-, rfl⟩ | ⟨-, rfl⟩ := exec_abstop_next_cases ht
    · rw [State.refuse_sponge]
    · rw [State.complete_sponge, absorbStop_Z]

/-! ## Counting the Shuffles -/

/-- From `q` to `p` the counter has moved by `n` nibbles and `k` Shuffles, each of which takes 128 off it and adds 6 to the
stride (R76). -/
structure CountsTo (n k : Nat) (q p : Sponge) : Prop where
  counter : q.A.toNat + n = 128 * k + p.A.toNat
  stride : p.W = q.W + BitVec.ofNat 8 (6 * k)

theorem CountsTo.trans {n k n' k' : Nat} {q p r : Sponge} (h : CountsTo n k q p) (h' : CountsTo n' k' p r) :
    CountsTo (n + n') (k + k') q r where
  counter := by have := h.counter; have := h'.counter; omega
  stride := by rw [h'.stride, h.stride, Nat.mul_add, BitVec.ofNat_add, BitVec.add_assoc]

/-- R70: one nibble counts one and runs at most one Shuffle. -/
theorem exists_absorbNibble_countsTo {q : Sponge} (h : q.A ≤ 128) (v : Nibble) :
    ∃ k, CountsTo 1 k q (absorbNibble q v) := by
  have hsucc := shuffleIfFull_A_succ_toNat h
  by_cases hfull : q.A = 128
  · rw [shuffleIfFull_of_eq hfull] at hsucc
    refine ⟨1, ?_, by rw [absorbNibble_W, shuffleIfFull_of_eq hfull, shuffle_W]; rfl⟩
    rw [absorbNibble_A, shuffleIfFull_of_eq hfull, hsucc, shuffle_A, hfull]
    rfl
  · rw [shuffleIfFull_of_ne hfull] at hsucc
    refine ⟨0, ?_, by rw [absorbNibble_W, shuffleIfFull_of_ne hfull]; simp⟩
    rw [absorbNibble_A, shuffleIfFull_of_ne hfull, hsucc]
    omega

/-- R76: absorbing bytes counts two nibbles a byte, and leaves the counter in 1..128 once there was a byte. -/
theorem exists_absorb_countsTo {q : Sponge} (h : q.A ≤ 128) (data : List Byte) :
    ∃ k, CountsTo (2 * data.length) k q (absorb q data) ∧
      (data ≠ [] → 1 ≤ (absorb q data).A.toNat ∧ (absorb q data).A.toNat ≤ 128) := by
  induction data using List.reverseRecOn with
  | nil => exact ⟨0, ⟨by simp [absorb], by simp [absorb]⟩, fun hne => absurd rfl hne⟩
  | append_singleton data b ih =>
    obtain ⟨k, hk, -⟩ := ih
    have hA := absorb_A_le h data
    have hA' := absorbNibble_A_le hA (lowNibble b)
    obtain ⟨klow, hlow⟩ := exists_absorbNibble_countsTo hA (lowNibble b)
    obtain ⟨khigh, hhigh⟩ := exists_absorbNibble_countsTo hA' (highNibble b)
    have hbyte : absorb q (data ++ [b]) = absorbNibble (absorbNibble (absorb q data) (lowNibble b)) (highNibble b) :=
      absorb_append q data [b]
    rw [hbyte, List.length_append, List.length_singleton, Nat.mul_add]
    exact ⟨_, hk.trans (hlow.trans hhigh), fun _ => absorbNibble_A_bounds hA' _⟩

/-- Settles O18: the counter ends in 1..128, so the sum of the nibbles tells it from the number of Shuffles. -/
theorem absShufflesWhereTheCountSays : Obligations.AbsShufflesWhereTheCountSays := by
  intro s data hF hA hdata
  obtain ⟨k, ⟨hcounter, hstride⟩, hbounds⟩ := exists_absorb_countsTo hA data
  obtain ⟨hpos, hle⟩ := hbounds hdata
  have hk : (s.sponge.A.toNat + 2 * data.length - 1) / 128 = k := by omega
  refine ⟨_, exec_abs_of_clear hF (.inr hA), ?_⟩
  rw [State.complete_sponge, hk]
  exact ⟨by omega, hstride⟩

/-! ## The frame without a Shuffle -/

/-- The two sponges have the same pointers and the same stride. -/
structure SamePointers (q p : Sponge) : Prop where
  I : p.I = q.I
  J : p.J = q.J
  K : p.K = q.K
  W : p.W = q.W

theorem SamePointers.trans {q p r : Sponge} (h : SamePointers q p) (h' : SamePointers p r) : SamePointers q r :=
  ⟨h'.I.trans h.I, h'.J.trans h.J, h'.K.trans h.K, h'.W.trans h.W⟩

section
variable {q : Sponge}

/-- R16: below 128 no Shuffle falls due. -/
theorem shuffleIfFull_of_lt (h : q.A.toNat < 128) : shuffleIfFull q = q :=
  shuffleIfFull_of_ne fun hA => by rw [hA] at h; exact absurd h (by decide)

theorem absorbNibble_samePointers (h : q.A.toNat < 128) (v : Nibble) : SamePointers q (absorbNibble q v) := by
  constructor <;> simp [shuffleIfFull_of_lt h]

theorem absorbNibble_A_toNat (h : q.A.toNat < 128) (v : Nibble) : (absorbNibble q v).A.toNat = q.A.toNat + 1 := by
  rw [absorbNibble_A, shuffleIfFull_of_lt h, BitVec.toNat_add, show (1 : Byte).toNat = 1 from rfl]
  omega

theorem absorbNibble_read_other (h : q.A.toNat < 128) {v : Nibble} {x : Byte} (hcounter : x.toNat ≠ q.A.toNat)
    (htarget : x ≠ absorbTarget v) : (absorbNibble q v).S.read x = q.S.read x := by
  rw [absorbNibble_S, shuffleIfFull_of_lt h,
    Memory.read_swap_other _ (fun hx => hcounter (congrArg BitVec.toNat hx)) htarget]

theorem absorbByte_samePointers (h : q.A.toNat + 2 ≤ 128) (b : Byte) : SamePointers q (absorbByte q b) :=
  (absorbNibble_samePointers (by omega) _).trans
    (absorbNibble_samePointers (by rw [absorbNibble_A_toNat (by omega)]; omega) _)

theorem absorbByte_A_toNat (h : q.A.toNat + 2 ≤ 128) (b : Byte) : (absorbByte q b).A.toNat = q.A.toNat + 2 := by
  have hlow := absorbNibble_A_toNat (q := q) (by omega) (lowNibble b)
  rw [absorbByte, absorbNibble_A_toNat (by omega), hlow]

theorem absorbByte_read_other (h : q.A.toNat + 2 ≤ 128) {b x : Byte} (hlow : x.toNat ≠ q.A.toNat)
    (hhigh : x.toNat ≠ q.A.toNat + 1) (hlowTarget : x ≠ absorbTarget (lowNibble b))
    (hhighTarget : x ≠ absorbTarget (highNibble b)) : (absorbByte q b).S.read x = q.S.read x := by
  have hA := absorbNibble_A_toNat (q := q) (by omega) (lowNibble b)
  rw [absorbByte, absorbNibble_read_other (by omega) (by rwa [hA]) hhighTarget,
    absorbNibble_read_other (by omega) hlow hlowTarget]

/-- The cell `x` is none of those that the swaps of `data` address, absorbed from the counter `a` on (R70, R71). -/
def AvoidsAbsorb (a : Nat) (data : List Byte) (x : Byte) : Prop :=
  ∀ p, (h : p < data.length) → x.toNat ≠ a + 2 * p ∧ x.toNat ≠ a + 2 * p + 1 ∧
    x ≠ absorbTarget (lowNibble data[p]) ∧ x ≠ absorbTarget (highNibble data[p])

theorem AvoidsAbsorb.tail {a : Nat} {b : Byte} {data : List Byte} {x : Byte} (h : AvoidsAbsorb a (b :: data) x) :
    AvoidsAbsorb (a + 2) data x := by
  intro p hp
  obtain ⟨hlow, hhigh, htargets⟩ := h (p + 1) (Nat.succ_lt_succ hp)
  exact ⟨by omega, by omega, htargets⟩

/-- R16: while the counter stays within 128, absorbing moves it by two a byte and changes the addressed cells alone. -/
theorem absorb_frame {data : List Byte} (h : q.A.toNat + 2 * data.length ≤ 128) :
    SamePointers q (absorb q data) ∧ (absorb q data).A.toNat = q.A.toNat + 2 * data.length ∧
      ∀ x, AvoidsAbsorb q.A.toNat data x → (absorb q data).S.read x = q.S.read x := by
  induction data generalizing q with
  | nil => exact ⟨⟨rfl, rfl, rfl, rfl⟩, rfl, fun _ _ => rfl⟩
  | cons b data ih =>
    rw [List.length_cons] at h
    have hbyte : q.A.toNat + 2 ≤ 128 := by omega
    have hA := absorbByte_A_toNat hbyte b
    obtain ⟨hpointers, hcounter, hread⟩ := ih (q := absorbByte q b) (by omega)
    refine ⟨(absorbByte_samePointers hbyte b).trans hpointers, hcounter.trans (by rw [List.length_cons]; omega),
      fun x hx => ?_⟩
    obtain ⟨hlow, hhigh, hlowTarget, hhighTarget⟩ := hx 0 (Nat.succ_pos _)
    exact (hread x (hA ▸ hx.tail)).trans (absorbByte_read_other hbyte hlow hhigh hlowTarget hhighTarget)

end

/-- Settles O19: the frame of each byte, two swaps and two increments, adds up to that of the command. -/
theorem absFrameWithoutShuffle : Obligations.AbsFrameWithoutShuffle := by
  intro s data hF h
  have hA : s.sponge.A ≤ 128 := by rw [BitVec.le_def, show (128 : Byte).toNat = 128 from rfl]; omega
  obtain ⟨hpointers, hcounter, hread⟩ := absorb_frame h
  refine ⟨_, exec_abs_of_clear hF (.inr hA), ?_⟩
  rw [State.complete_sponge, State.complete_FLT, State.complete_input]
  exact ⟨hpointers.I, hpointers.J, hpointers.K, hpointers.W, absorb_Z _ _, hcounter, hF, rfl, hread⟩

end Sys2Proof.Machine
end

section
/-! # R86: the stride

An odd stride has an inverse modulo 256, so the pointer `I` is at a given index exactly at the Updates of one residue modulo 256;
of 512 consecutive Updates two are. -/

namespace Sys2Proof.Machine

/-- An odd byte has an inverse modulo 256. -/
theorem exists_inverse_of_odd {w : Byte} (h : w.toNat % 2 = 1) : ∃ v : Byte, w * v = 1 := by
  have hcoprime : w.toNat.Coprime 256 := (Nat.coprime_two_right.mpr (Nat.odd_iff.mpr h)).pow_right 8
  obtain ⟨m, -, hm⟩ := Nat.exists_mul_mod_eq_one_of_coprime hcoprime (by decide)
  refine ⟨BitVec.ofNat 8 m, BitVec.eq_of_toNat_eq ?_⟩
  rw [BitVec.toNat_mul, BitVec.toNat_ofNat, Nat.mul_mod_mod]
  exact hm

/-- The numbers that are a given byte modulo 256 are those of one residue. -/
theorem ofNat_succ_eq_iff {n : Nat} {c : Byte} : BitVec.ofNat 8 (n + 1) = c ↔ n ≡ c.toNat + 255 [MOD 256] := by
  rw [← BitVec.toNat_inj, BitVec.toNat_ofNat, Nat.ModEq]
  have := c.isLt
  omega

/-- R86 (d): with an odd stride the Updates that bring `I` to `x` are those of one residue modulo 256. -/
theorem exists_residue_of_visit {q : Sponge} (h : q.W.toNat % 2 = 1) (x : Byte) :
    ∃ c, ∀ n, (update^[n + 1] q).I = x ↔ n ≡ c [MOD 256] := by
  obtain ⟨v, hv⟩ := exists_inverse_of_odd h
  refine ⟨((x - q.I) * v).toNat + 255, fun n => ?_⟩
  obtain ⟨-, -, -, hI⟩ := iterate_update q (n + 1)
  rw [hI, ← ofNat_succ_eq_iff]
  constructor
  · rintro rfl
    rw [add_sub_cancel_left, mul_assoc, hv, mul_one]
  · intro hn
    rw [hn, mul_assoc, mul_comm v, hv, mul_one, add_sub_cancel]

/-- R86 (c): each Whip adds 2 to the stride. -/
theorem iterate_whip_W (q : Sponge) (n : Nat) : (whip^[n] q).W = q.W + BitVec.ofNat 8 (2 * n) := by
  induction n with
  | zero => simp
  | succ n ih =>
    rw [Function.iterate_succ_apply', whip_W, ih, Nat.mul_succ, BitVec.ofNat_add, BitVec.add_assoc]
    rfl

/-- Settles O24: each residue modulo 256 comes twice among 512 numbers; 128 Whips add 256 to the stride. -/
theorem strideVisitsEveryCellTwiceAndComesBack : Obligations.StrideVisitsEveryCellTwiceAndComesBack := by
  refine ⟨fun q x h => ?visits, fun q => ?comesBack⟩
  case visits =>
    obtain ⟨c, hc⟩ := exists_residue_of_visit h x
    calc ((List.range 512).filter fun n => (update^[n + 1] q).I == x).length
        = Nat.count (· ≡ c [MOD 256]) 512 := by
          rw [Nat.count, List.countP_eq_length_filter]
          refine congrArg List.length (List.filter_congr fun n _ => ?_)
          rw [Bool.eq_iff_iff, beq_iff_eq, decide_eq_true_iff, hc]
      _ = 2 := by rw [Nat.count_modEq_card _ (by decide)]; simp
  case comesBack =>
    rw [iterate_whip_W, show BitVec.ofNat 8 (2 * 128) = 0 from rfl, add_zero]

end Sys2Proof.Machine
end

section
/-! # R95, R106, R107: splitting the output, and `XORKS` as `SQZ`

After an output command nothing is pending, so a second one goes on with the DripSteps where the first stopped; and `XORKS` runs
the DripSteps of the `SQZ` of its length, whatever its source bytes are. -/

namespace Sys2Proof.Machine

/-! ## Splitting -/

section
variable (q : Sponge)

/-- R95: the check of a second output command finds nothing pending. -/
theorem shuffleIfPending_dripSteps (n : Nat) :
    shuffleIfPending (dripSteps n (shuffleIfPending q)).1 = (dripSteps n (shuffleIfPending q)).1 :=
  shuffleIfPending_of_zero (by rw [dripSteps_A, shuffleIfPending_A])

theorem shuffleIfPending_xorSteps (src : List Byte) :
    shuffleIfPending (xorSteps src (shuffleIfPending q)).1 = (xorSteps src (shuffleIfPending q)).1 :=
  shuffleIfPending_of_zero (by rw [xorSteps_A, shuffleIfPending_A])

end

section
variable {s : State}

/-- R95: a `SQZ` that follows a `SQZ` goes on where that one stopped. -/
theorem exec_sqz_after_sqz (hF : s.FLT = false) (n m : Nat) (out : List Byte) :
    exec (.sqz m) (s.complete (dripSteps n (shuffleIfPending s.sponge)).1 out) =
      .next (s.complete (dripSteps m (dripSteps n (shuffleIfPending s.sponge)).1).1
        (dripSteps m (dripSteps n (shuffleIfPending s.sponge)).1).2) := by
  rw [exec_sqz_of_clear m ((s.complete_FLT _ _).trans hF), State.complete_sponge, shuffleIfPending_dripSteps,
    State.complete_complete]
  rw [State.complete_sponge, dripSteps_A, shuffleIfPending_A]
  decide

/-- R58: an `XORKS` that follows an `XORKS` goes on where that one stopped. -/
theorem exec_xorks_after_xorks (hF : s.FLT = false) (src : List Byte) {dcap : Nat} {src' : List Byte}
    (hfits : src'.length ≤ dcap) (out : List Byte) :
    exec (.xorks dcap src') (s.complete (xorSteps src (shuffleIfPending s.sponge)).1 out) =
      .next (s.complete (xorSteps src' (xorSteps src (shuffleIfPending s.sponge)).1).1
        (xorSteps src' (xorSteps src (shuffleIfPending s.sponge)).1).2) := by
  rw [exec_xorks_of_clear ((s.complete_FLT _ _).trans hF) _ hfits, State.complete_sponge, shuffleIfPending_xorSteps,
    State.complete_complete]
  rw [State.complete_sponge, xorSteps_A, shuffleIfPending_A]
  decide

end

/-- R95: `SQZ 1` is `DRIP`: one DripStep after the same checks. -/
theorem exec_sqz_one (s : State) : exec (.sqz 1) s = exec .drip s := by
  rw [exec, exec, execSqz, execDrip, dripSteps, dripSteps]

/-- Settles O29: the steps of the two commands join into those of the one. -/
theorem sqzSplitsAnywhere : Obligations.SqzSplitsAnywhere := by
  refine ⟨fun s n m hF hA => ?splits, exec_sqz_one⟩
  case splits =>
    refine ⟨_, _, _, _, _, exec_sqz_of_clear n hF hA, State.complete_response .., exec_sqz_after_sqz hF n m _,
      State.complete_response .., exec_sqz_of_clear (n + m) hF hA, ?_, ?_, ?_⟩
    · rw [State.complete_response, dripSteps_add]
    · rw [State.complete_sponge, State.complete_sponge, dripSteps_add]
    · rw [State.complete_FLT, State.complete_FLT]

/-- Settles O36: the steps of the two commands join into those of the one, and the capacities add up. -/
theorem xorksSplitsAnywhere : Obligations.XorksSplitsAnywhere := by
  intro s d d' x y hF hA hx hy
  have hfits : (x ++ y).length ≤ d + d' := by rw [List.length_append]; omega
  refine ⟨_, _, _, _, _, exec_xorks_of_clear hF hA hx, State.complete_response .., exec_xorks_after_xorks hF x hy _,
    State.complete_response .., exec_xorks_of_clear hF hA hfits, ?_, ?_, ?_⟩
  · rw [State.complete_response, xorSteps_append]
  · rw [State.complete_sponge, State.complete_sponge, xorSteps_append]
  · rw [State.complete_FLT, State.complete_FLT]

/-! ## The frame without a Shuffle -/

section
variable (q : Sponge)

theorem iterate_dripStep_W (n : Nat) : (dripStep^[n] q).W = q.W := by
  induction n with
  | zero => rfl
  | succ n ih => rw [Function.iterate_succ_apply', dripStep_W, ih]

theorem iterate_dripStep_A (n : Nat) : (dripStep^[n] q).A = q.A := by
  induction n with
  | zero => rfl
  | succ n ih => rw [Function.iterate_succ_apply', dripStep_A, ih]

/-- R91: a DripStep swaps the cells that `I` and `J` address after it. -/
theorem dripStep_read_other {x : Byte} (hI : x ≠ (dripStep q).I) (hJ : x ≠ (dripStep q).J) :
    (dripStep q).S.read x = q.S.read x := by
  rw [dripStep_I] at hI
  rw [dripStep_J] at hJ
  rw [dripStep_S, update_S, Memory.read_swap_other _ hI hJ]

/-- The cell `x` is none of those that `n` DripSteps from `q` swap. -/
def AvoidsDripSteps (n : Nat) (x : Byte) : Prop :=
  ∀ p, p < n → x ≠ (dripStep^[p + 1] q).I ∧ x ≠ (dripStep^[p + 1] q).J

variable {q}

theorem iterate_dripStep_read_other {n : Nat} {x : Byte} (h : AvoidsDripSteps q n x) :
    (dripStep^[n] q).S.read x = q.S.read x := by
  induction n with
  | zero => rfl
  | succ n ih =>
    obtain ⟨hI, hJ⟩ := h n (Nat.lt_succ_self n)
    rw [Function.iterate_succ_apply'] at hI hJ ⊢
    rw [dripStep_read_other _ hI hJ, ih fun p hp => h p (hp.trans (Nat.lt_succ_self n))]

end

/-- Completing with the sponge after `n` DripSteps keeps the stride, the counter, `FLT`, the inputs and the cells the
steps do not swap. -/
theorem complete_dripSteps_frame {s : State} {q : Sponge} {n : Nat} (hF : s.FLT = false) (hA : s.sponge.A = 0)
    (hq : q = dripStep^[n] s.sponge) (out : List Byte) :
    (s.complete q out).sponge.W = s.sponge.W ∧ (s.complete q out).sponge.A = 0 ∧ (s.complete q out).FLT = false ∧
      (s.complete q out).input = s.input ∧
      ∀ x, AvoidsDripSteps s.sponge n x → (s.complete q out).sponge.S.read x = s.sponge.S.read x := by
  rw [State.complete_sponge, State.complete_FLT, State.complete_input, hq]
  exact ⟨iterate_dripStep_W _ n, (iterate_dripStep_A _ n).trans hA, hF, rfl, fun x hx => iterate_dripStep_read_other hx⟩

/-- Settles O30: with `A = 0` both commands complete with the sponge after their DripSteps. -/
theorem outputFrameWithoutShuffle : Obligations.OutputFrameWithoutShuffle := by
  intro s n hF hA
  have hlegal : s.sponge.A ≤ 128 := by rw [hA]; decide
  refine ⟨⟨_, exec_sqz_of_clear n hF hlegal, ?sqz⟩, fun dcap src hlen hfits =>
    ⟨_, exec_xorks_of_clear hF hlegal (hlen ▸ hfits), ?xorks⟩⟩
  case sqz => exact complete_dripSteps_frame hF hA (by rw [shuffleIfPending_of_zero hA, dripSteps_eq_iterate]) _
  case xorks =>
    exact complete_dripSteps_frame hF hA
      (by rw [shuffleIfPending_of_zero hA, xorSteps_eq_dripSteps, dripSteps_eq_iterate, hlen]) _

/-! ## `XORKS` as `SQZ` -/

/-- R106: XORing with the bytes of zero changes nothing. -/
theorem zipWith_xor_of_zero {src ks : List Byte} (hlen : src.length = ks.length) (hzero : ∀ b ∈ src, b = 0) :
    List.zipWith (fun b z => b ^^^ z) src ks = ks := by
  induction src generalizing ks with
  | nil => rw [List.zipWith_nil_left, List.eq_nil_of_length_eq_zero hlen.symm]
  | cons b src ih =>
    obtain ⟨z, ks, rfl⟩ := List.exists_cons_of_length_eq_add_one hlen.symm
    rw [List.forall_mem_cons] at hzero
    rw [List.zipWith_cons_cons, ih (Nat.succ.inj hlen) hzero.2, hzero.1]
    exact congrArg (· :: ks) BitVec.zero_xor

/-- R107: XORing twice with the same keystream gives the bytes back. -/
theorem zipWith_xor_cancel {src ks : List Byte} (hlen : src.length = ks.length) :
    List.zipWith (fun b z => b ^^^ z) (List.zipWith (fun b z => b ^^^ z) src ks) ks = src := by
  induction src generalizing ks with
  | nil => rfl
  | cons b src ih =>
    obtain ⟨z, ks, rfl⟩ := List.exists_cons_of_length_eq_add_one hlen.symm
    rw [List.zipWith_cons_cons, List.zipWith_cons_cons, ih (Nat.succ.inj hlen), BitVec.xor_assoc, BitVec.xor_self,
      BitVec.xor_zero]

/-- R106: `XORKS` completes with the sponge of the `SQZ` of its length, its source XORed with that command's bytes. -/
theorem exec_xorks_eq_dripSteps {s : State} {dcap : Nat} {src : List Byte} (hF : s.FLT = false)
    (hA : s.sponge.A ≤ 128) (hfits : src.length ≤ dcap) :
    exec (.xorks dcap src) s = .next (s.complete (dripSteps src.length (shuffleIfPending s.sponge)).1
      (List.zipWith (fun b z => b ^^^ z) src (dripSteps src.length (shuffleIfPending s.sponge)).2)) := by
  rw [exec_xorks_of_clear hF hA hfits, xorSteps_eq_dripSteps]

/-- Settles O33: both commands complete with the same sponge; with a source of zeros the bytes are the same too. -/
theorem xorksIsSqzXored : Obligations.XorksIsSqzXored := by
  intro s dcap src hF hA hfits
  refine ⟨_, _, _, exec_xorks_eq_dripSteps hF hA hfits, exec_sqz_of_clear _ hF hA, State.complete_response ..,
    State.complete_response .., ?_, ?_, fun hzero => ?_⟩
  · rw [State.complete_sponge, State.complete_sponge]
  · rw [State.complete_FLT, State.complete_FLT]
  · rw [zipWith_xor_of_zero (dripSteps_length _ _).symm hzero]

/-- Settles O34: the two runs have one keystream, and XORing with it twice changes nothing. -/
theorem xorksDecryptsItself : Obligations.XorksDecryptsItself := by
  intro s d d' m hF hA hd hd'
  have hlen :
      (List.zipWith (fun b z => b ^^^ z) m (dripSteps m.length (shuffleIfPending s.sponge)).2).length = m.length := by
    rw [List.length_zipWith, dripSteps_length, Nat.min_self]
  refine ⟨_, _, _, exec_xorks_eq_dripSteps hF hA hd, State.complete_response ..,
    exec_xorks_eq_dripSteps hF hA (hlen.trans_le hd'), ?_, ?_⟩
  · rw [State.complete_response, hlen, zipWith_xor_cancel (dripSteps_length _ _).symm]
  · rw [State.complete_sponge, State.complete_sponge, hlen]

/-- Settles O35: the DripSteps of an `XORKS` are counted by its source and read nothing of it. -/
theorem keystreamIgnoresThePayload : Obligations.KeystreamIgnoresThePayload := by
  intro s d d' m m' hF hA hd hd' hlen
  refine ⟨_, _, exec_xorks_eq_dripSteps hF hA hd, exec_xorks_eq_dripSteps hF hA hd', ?_, ?_⟩
  · rw [State.complete_sponge, State.complete_sponge, hlen]
  · rw [State.complete_FLT, State.complete_FLT]

end Sys2Proof.Machine
end

section
/-! # R57, R110, R115, R116: long operations and the hash sequence

A long operation is cut into chunks, and one command per chunk, run in order, ends where the one unbounded command does, because
absorbing, squeezing and the XOR stream each split anywhere. -/

namespace Sys2Proof.Machine

/-! ## Runs answered `OK` -/

/-- The commands, issued to `s`, run to `u`, every response `OK`, with the bytes `out` in all. -/
def RunsTo (is : List Instr) (s u : State) (out : List Byte) : Prop :=
  ∃ rs, issue is s = .next (u, rs) ∧ outputs rs = out ∧ ∀ r ∈ rs, r.status = .ok

section
variable {i : Instr} {is js : List Instr} {s u v : State} {q : Sponge} {out out' : List Byte}

theorem RunsTo.nil (s : State) : RunsTo [] s s [] := ⟨[], rfl, rfl, nofun⟩

theorem RunsTo.cons (hi : exec i s = .next (s.complete q out)) (his : RunsTo is (s.complete q out) u out') :
    RunsTo (i :: is) s u (out ++ out') := by
  obtain ⟨rs, hrs, rfl, hok⟩ := his
  have hrun := issue_cons_of_next hi hrs
  rw [State.complete_response] at hrun
  exact ⟨_, hrun, rfl, List.forall_mem_cons.mpr ⟨rfl, hok⟩⟩

theorem RunsTo.single (hi : exec i s = .next (s.complete q out)) : RunsTo [i] s (s.complete q out) out := by
  have hrun := RunsTo.cons hi (.nil _)
  rwa [List.append_nil] at hrun

theorem issue_append_of_next {rs rs' : List Response} (his : issue is s = .next (u, rs))
    (hjs : issue js u = .next (v, rs')) : issue (is ++ js) s = .next (v, rs ++ rs') := by
  induction is generalizing s rs with
  | nil =>
    cases his
    exact hjs
  | cons i is ih =>
    obtain ⟨t, rs₁, ht, hrest, rfl⟩ := issue_cons_next his
    rw [List.append_assoc]
    exact issue_cons_of_next ht (ih hrest)

theorem RunsTo.append (his : RunsTo is s u out) (hjs : RunsTo js u v out') : RunsTo (is ++ js) s v (out ++ out') := by
  obtain ⟨rs, hrs, rfl, hok⟩ := his
  obtain ⟨rs', hrs', rfl, hok'⟩ := hjs
  exact ⟨_, issue_append_of_next hrs hrs', List.flatMap_append, List.forall_mem_append.mpr ⟨hok, hok'⟩⟩

end

/-! ## Chunks -/

section
variable {size fuel : Nat} {xs : List Byte}

theorem chunks_succ (hxs : xs ≠ []) : chunks size (fuel + 1) xs = xs.take size :: chunks size fuel (xs.drop size) :=
  if_neg hxs

theorem chunks_nil (size fuel : Nat) : chunks size fuel [] = [] := by
  cases fuel <;> rfl

/-- R57: the chunks are consecutive and leave out nothing. -/
theorem flatten_chunks (hsize : 0 < size) (hfuel : xs.length ≤ fuel) : (chunks size fuel xs).flatten = xs := by
  induction fuel generalizing xs with
  | zero => rw [List.eq_nil_of_length_eq_zero (Nat.le_zero.mp hfuel)]; rfl
  | succ fuel ih =>
    by_cases hxs : xs = []
    · rw [hxs, chunks_nil]; rfl
    · have hpos := List.length_pos_iff.mpr hxs
      rw [chunks_succ hxs, List.flatten_cons, ih (by rw [List.length_drop]; omega), List.take_append_drop]

/-- R57: no chunk is longer than the bound. -/
theorem length_le_of_mem_chunks {c : List Byte} (hc : c ∈ chunks size fuel xs) : c.length ≤ size := by
  induction fuel generalizing xs with
  | zero => cases hc
  | succ fuel ih =>
    by_cases hxs : xs = []
    · rw [hxs, chunks_nil] at hc
      cases hc
    · rw [chunks_succ hxs] at hc
      obtain rfl | hc := List.mem_cons.mp hc
      · exact List.length_take_le size xs
      · exact ih hc

/-- Some byte gives some chunk. -/
theorem chunks_length_ne_nil (hxs : xs ≠ []) : chunks size xs.length xs ≠ [] := by
  obtain ⟨n, hn⟩ := Nat.exists_eq_succ_of_ne_zero (mt List.length_eq_zero_iff.mp hxs)
  rw [hn, chunks_succ hxs]
  exact List.cons_ne_nil _ _

end

theorem maxLen_pos : 0 < Config.maxLen := by decide

/-! ## ABSORB -/

/-- R75: one `ABS` per chunk absorbs the chunks' bytes. -/
theorem runsTo_abs_chunks {s : State} (hF : s.FLT = false) (hA : s.sponge.A ≤ 128) (c : List Byte) (cs : List (List Byte)) :
    RunsTo ((c :: cs).map .abs) s (s.complete (absorb s.sponge (c :: cs).flatten) []) [] := by
  induction cs generalizing s c with
  | nil =>
    rw [List.flatten_singleton]
    exact .single (exec_abs_of_clear hF (.inr hA))
  | cons c' cs ih =>
    have hA' : (s.complete (absorb s.sponge c) []).sponge.A ≤ 128 := by
      rw [State.complete_sponge]
      exact absorb_A_le hA c
    have hrest := ih ((s.complete_FLT _ _).trans hF) hA' c'
    rw [State.complete_complete, State.complete_sponge, ← absorb_append, ← List.flatten_cons] at hrest
    exact .cons (exec_abs_of_clear hF (.inr hA)) hrest

/-- R57: ABSORB ends in the state of the one unbounded `ABS`. -/
theorem runsTo_absorbSeq {s : State} {data : List Byte} (hF : s.FLT = false) (hA : data = [] ∨ s.sponge.A ≤ 128) :
    RunsTo (absorbSeq data) s (s.complete (absorb s.sponge data) []) [] := by
  by_cases hdata : data = []
  · rw [absorbSeq, if_pos hdata, hdata]
    exact .single (exec_abs_nil hF)
  · obtain ⟨c, cs, hchunks⟩ := List.exists_cons_of_ne_nil (chunks_length_ne_nil (size := Config.maxLen) hdata)
    have hrun := runsTo_abs_chunks hF (hA.resolve_left hdata) c cs
    rw [← hchunks, flatten_chunks maxLen_pos le_rfl] at hrun
    rwa [absorbSeq, if_neg hdata]

theorem wellFormed_of_mem_absorbSeq {data : List Byte} {i : Instr} (hi : i ∈ absorbSeq data) : i.wellFormed = true := by
  unfold absorbSeq at hi
  split at hi
  · rw [List.mem_singleton.mp hi]
    rfl
  · obtain ⟨c, hc, rfl⟩ := List.mem_map.mp hi
    exact fitsLen_iff.mpr (length_le_of_mem_chunks hc)

theorem ne_rst_of_mem_absorbSeq {data : List Byte} {i : Instr} (hi : i ∈ absorbSeq data) : i ≠ .rst := by
  unfold absorbSeq at hi
  split at hi
  · rw [List.mem_singleton.mp hi]
    nofun
  · obtain ⟨c, -, rfl⟩ := List.mem_map.mp hi
    nofun

theorem absorbSeq_ne_nil (data : List Byte) : absorbSeq data ≠ [] := by
  unfold absorbSeq
  split
  · nofun
  next hdata => exact mt List.map_eq_nil_iff.mp (chunks_length_ne_nil hdata)

/-- R123: with `FLT = 1` every command of a run without `RST` is refused. -/
theorem issue_of_faulted {i : Instr} {is : List Instr} {s : State} (hF : s.FLT = true) (his : ∀ j ∈ i :: is, j ≠ .rst) :
    ∃ rs, issue (i :: is) s = .next (s.refuse, rs) ∧ outputs rs = [] := by
  induction is generalizing i s with
  | nil => exact ⟨_, issue_cons_of_next (exec_of_faulted (his i List.mem_cons_self) hF) rfl, rfl⟩
  | cons j is ih =>
    obtain ⟨hi, hrest⟩ := List.forall_mem_cons.mp his
    obtain ⟨rs, hrs, hout⟩ := ih (s.refuse_FLT.trans hF) hrest
    rw [State.refuse_refuse] at hrs
    have hrun := issue_cons_of_next (exec_of_faulted hi hF) hrs
    rw [State.refuse_response] at hrun
    exact ⟨_, hrun, hout⟩

/-- Settles O38: refused as the one `ABS` is with `FLT = 1`; else each chunk is absorbed in turn. -/
theorem absorbSequenceIsOneAbs : Obligations.AbsorbSequenceIsOneAbs := by
  refine fun s t data ht => ⟨fun i hi => wellFormed_of_mem_absorbSeq hi, ?runs⟩
  case runs =>
    obtain ⟨hF, rfl⟩ | ⟨hF, hA, rfl⟩ := exec_abs_next_cases ht
    · obtain ⟨i, is, hseq⟩ := List.exists_cons_of_ne_nil (absorbSeq_ne_nil data)
      have hrst : ∀ j ∈ absorbSeq data, j ≠ .rst := fun j hj => ne_rst_of_mem_absorbSeq hj
      rw [hseq] at hrst ⊢
      exact issue_of_faulted hF hrst
    · obtain ⟨rs, hrs, hout, -⟩ := runsTo_absorbSeq hF hA
      exact ⟨rs, hrs, hout⟩

/-! ## SQUEEZE -/

/-- R95: one `SQZ` per count gives the bytes of the sum and ends in its sponge. -/
theorem runsTo_sqz_counts {s : State} (hF : s.FLT = false) (hA : s.sponge.A ≤ 128) (n : Nat) (ns : List Nat) :
    ∃ last, RunsTo ((n :: ns).map .sqz) s
      (s.complete (dripSteps (n :: ns).sum (shuffleIfPending s.sponge)).1 last)
      (dripSteps (n :: ns).sum (shuffleIfPending s.sponge)).2 := by
  induction ns generalizing s n with
  | nil =>
    rw [List.sum_singleton]
    exact ⟨_, .single (exec_sqz_of_clear n hF hA)⟩
  | cons m ns ih =>
    have hfirst := exec_sqz_of_clear n hF hA
    generalize hp : (dripSteps n (shuffleIfPending s.sponge)).2 = out at hfirst
    have hA' : (s.complete (dripSteps n (shuffleIfPending s.sponge)).1 out).sponge.A ≤ 128 := by
      rw [State.complete_sponge, dripSteps_A, shuffleIfPending_A]
      decide
    obtain ⟨last, hrest⟩ := ih ((s.complete_FLT _ _).trans hF) hA' m
    rw [State.complete_complete, State.complete_sponge, shuffleIfPending_dripSteps] at hrest
    rw [List.sum_cons, dripSteps_add, hp]
    exact ⟨last, .cons hfirst hrest⟩

/-- R57: the counts of SQUEEZE. -/
def squeezeCounts (n : Nat) : List Nat :=
  if n = 0 then [0]
  else List.replicate (n / Config.maxLen) Config.maxLen ++
    (if n % Config.maxLen = 0 then [] else [n % Config.maxLen])

theorem squeezeSeq_eq_map (n : Nat) : squeezeSeq n = (squeezeCounts n).map .sqz := by
  unfold squeezeSeq squeezeCounts
  split
  · rfl
  · split <;> simp

/-- R57: the counts sum to the number of bytes asked for. -/
theorem sum_squeezeCounts (n : Nat) : (squeezeCounts n).sum = n := by
  unfold squeezeCounts
  split
  next hn => exact hn.symm
  next hn =>
    have hdiv := Nat.div_add_mod' n Config.maxLen
    split
    next hmod => simpa [hmod] using hdiv
    next hmod => simpa using hdiv

theorem le_maxLen_of_mem_squeezeCounts {n k : Nat} (hk : k ∈ squeezeCounts n) : k ≤ Config.maxLen := by
  have hmod : n % Config.maxLen ≤ Config.maxLen := (Nat.mod_lt n maxLen_pos).le
  unfold squeezeCounts at hk
  split at hk
  · rw [List.mem_singleton.mp hk]
    exact Nat.zero_le _
  · obtain hk | hk := List.mem_append.mp hk
    · exact (List.eq_of_mem_replicate hk).le
    · split at hk
      · cases hk
      · rwa [List.mem_singleton.mp hk]

/-- R57: also for no byte at all there is a command. -/
theorem squeezeCounts_ne_nil (n : Nat) : squeezeCounts n ≠ [] := by
  by_cases hn : n = 0
  · rw [squeezeCounts, if_pos hn]
    exact List.cons_ne_nil _ _
  · intro hnil
    have hsum := sum_squeezeCounts n
    rw [hnil] at hsum
    exact hn hsum.symm

/-- R57: SQUEEZE gives the bytes of the one unbounded `SQZ` and ends in its sponge. -/
theorem runsTo_squeezeSeq {s : State} (hF : s.FLT = false) (hA : s.sponge.A ≤ 128) (n : Nat) :
    ∃ last, RunsTo (squeezeSeq n) s (s.complete (dripSteps n (shuffleIfPending s.sponge)).1 last)
      (dripSteps n (shuffleIfPending s.sponge)).2 := by
  obtain ⟨k, ks, hcounts⟩ := List.exists_cons_of_ne_nil (squeezeCounts_ne_nil n)
  have hrun := runsTo_sqz_counts hF hA k ks
  rwa [← hcounts, ← squeezeSeq_eq_map, sum_squeezeCounts] at hrun

theorem wellFormed_of_mem_squeezeSeq {n : Nat} {i : Instr} (hi : i ∈ squeezeSeq n) : i.wellFormed = true := by
  rw [squeezeSeq_eq_map] at hi
  obtain ⟨k, hk, rfl⟩ := List.mem_map.mp hi
  exact fitsLen_iff.mpr (le_maxLen_of_mem_squeezeCounts hk)

/-- Settles O39: the counts sum to `n`, and the steps of the commands join. -/
theorem squeezeSequenceIsOneSqz : Obligations.SqueezeSequenceIsOneSqz := by
  intro s n hF hA
  obtain ⟨last, rs, hrs, hout, -⟩ := runsTo_squeezeSeq hF hA n
  refine ⟨fun i hi => wellFormed_of_mem_squeezeSeq hi, _, _, _, rs, exec_sqz_of_clear n hF hA, State.complete_response ..,
    hrs, hout, ?_, ?_⟩
  · rw [State.complete_sponge, State.complete_sponge]
  · rw [State.complete_FLT, State.complete_FLT]

/-! ## XORSTREAM -/

/-- The `XORKS` of one chunk, its capacity the chunk's own length (R116). -/
def xorksChunk (c : List Byte) : Instr := .xorks c.length c

/-- R58: one `XORKS` per chunk gives the bytes of the chunks in a row and ends in their sponge. -/
theorem runsTo_xorks_chunks {s : State} (hF : s.FLT = false) (hA : s.sponge.A ≤ 128) (c : List Byte)
    (cs : List (List Byte)) :
    ∃ last, RunsTo ((c :: cs).map xorksChunk) s
      (s.complete (xorSteps (c :: cs).flatten (shuffleIfPending s.sponge)).1 last)
      (xorSteps (c :: cs).flatten (shuffleIfPending s.sponge)).2 := by
  induction cs generalizing s c with
  | nil =>
    rw [List.flatten_singleton]
    exact ⟨_, .single (exec_xorks_of_clear hF hA le_rfl)⟩
  | cons c' cs ih =>
    have hfirst := exec_xorks_of_clear hF hA (le_refl c.length)
    generalize hp : (xorSteps c (shuffleIfPending s.sponge)).2 = out at hfirst
    have hA' : (s.complete (xorSteps c (shuffleIfPending s.sponge)).1 out).sponge.A ≤ 128 := by
      rw [State.complete_sponge, xorSteps_A, shuffleIfPending_A]
      decide
    obtain ⟨last, hrest⟩ := ih ((s.complete_FLT _ _).trans hF) hA' c'
    rw [State.complete_complete, State.complete_sponge, shuffleIfPending_xorSteps] at hrest
    rw [List.flatten_cons, xorSteps_append, hp]
    exact ⟨last, .cons hfirst hrest⟩

/-- R57, R116: with room for the whole, XORSTREAM is a list of encodable commands that gives the bytes of the one unbounded
`XORKS` and ends in its sponge. -/
theorem exists_runsTo_xorStreamSeq {s : State} {dcap : Nat} {src : List Byte} (hF : s.FLT = false)
    (hA : s.sponge.A ≤ 128) (hfits : src.length ≤ dcap) :
    ∃ is last, xorStreamSeq dcap src = some is ∧ (∀ i ∈ is, i.wellFormed = true) ∧
      RunsTo is s (s.complete (xorSteps src (shuffleIfPending s.sponge)).1 last)
        (xorSteps src (shuffleIfPending s.sponge)).2 := by
  rw [xorStreamSeq, if_neg hfits.not_gt]
  by_cases hsrc : src = []
  · subst hsrc
    refine ⟨_, _, if_pos rfl, ?_, .single (exec_xorks_of_clear hF hA (Nat.zero_le _))⟩
    rw [List.forall_mem_singleton, Instr.wellFormed, Bool.and_eq_true, fitsLen_iff, fitsLen_iff]
    exact ⟨Nat.min_le_right dcap Config.maxLen, Nat.zero_le _⟩
  · obtain ⟨c, cs, hchunks⟩ := List.exists_cons_of_ne_nil (chunks_length_ne_nil (size := Config.maxLen) hsrc)
    obtain ⟨last, hrun⟩ := runsTo_xorks_chunks hF hA c cs
    rw [← hchunks, flatten_chunks maxLen_pos le_rfl] at hrun
    refine ⟨_, last, if_neg hsrc, fun i hi => ?_, hrun⟩
    obtain ⟨c, hc, rfl⟩ := List.mem_map.mp hi
    have hlen := fitsLen_iff.mpr (length_le_of_mem_chunks hc)
    rw [Instr.wellFormed, hlen, Bool.and_self]

/-- Settles O40: the host's own check stops a short destination; else the steps of the commands join. -/
theorem xorStreamSequenceIsOneXorks : Obligations.XorStreamSequenceIsOneXorks := by
  refine fun s dcap src hF hA => ⟨fun hshort => if_pos hshort, fun hfits => ?runs⟩
  case runs =>
    obtain ⟨is, last, hseq, hwf, rs, hrs, hout, hok⟩ := exists_runsTo_xorStreamSeq hF hA hfits
    refine ⟨is, _, _, _, rs, hseq, hwf, exec_xorks_of_clear hF hA hfits, State.complete_response .., hrs, hout, hok,
      ?_, ?_⟩
    · rw [State.complete_sponge, State.complete_sponge]
    · rw [State.complete_FLT, State.complete_FLT]

/-! ## HASH -/

section
variable {s : State} (hF : s.FLT = false) (hA : s.sponge.A ≤ 128)
include hF hA

/-- ABSORB leaves a core that runs every command. -/
theorem exists_runsTo_absorbSeq (data : List Byte) :
    ∃ u, RunsTo (absorbSeq data) s u [] ∧ u.FLT = false ∧ u.sponge.A ≤ 128 := by
  refine ⟨_, runsTo_absorbSeq hF (.inr hA), (s.complete_FLT _ _).trans hF, ?_⟩
  rw [State.complete_sponge]
  exact absorb_A_le hA data

/-- `ABSTOP` leaves a core that runs every command. -/
theorem exists_runsTo_abstop : ∃ u, RunsTo [.abstop] s u [] ∧ u.FLT = false ∧ u.sponge.A ≤ 128 := by
  refine ⟨_, .single (exec_abstop_of_clear hF hA), (s.complete_FLT _ _).trans hF, ?_⟩
  rw [State.complete_sponge, absorbStop, Sponge.setA_A]
  exact absorb_counter hA

end

/-- Settles O41: three parts that emit nothing, then the squeeze, which emits `r` bytes and leaves nothing pending. -/
theorem hashSequenceGivesTheDigestSize : Obligations.HashSequenceGivesTheDigestSize := by
  intro s data r hF hA
  obtain ⟨s₁, hdata, hF₁, hA₁⟩ := exists_runsTo_absorbSeq hF hA data
  obtain ⟨s₂, hstop, hF₂, hA₂⟩ := exists_runsTo_abstop hF₁ hA₁
  obtain ⟨s₃, hsize, hF₃, hA₃⟩ := exists_runsTo_absorbSeq hF₂ hA₂ (encSize r)
  obtain ⟨last, hsqueeze⟩ := runsTo_squeezeSeq hF₃ hA₃ r
  obtain ⟨rs, hrs, hout, hok⟩ := ((hdata.append hstop).append hsize).append hsqueeze
  refine ⟨_, rs, hrs, ?_, hok, (s₃.complete_FLT _ _).trans hF₃, ?_⟩
  · rw [hout, List.length_append, dripSteps_length]
    exact Nat.zero_add r
  · rw [State.complete_sponge, dripSteps_A, shuffleIfPending_A]

end Sys2Proof.Machine
end
